-- ==== Sys2Proof/Word.lean ====
section
/-! DEFINITION. The words of the block: unsigned values of a stated width, bit 0 least significant
(00_scope R8, R9). -/

namespace Sys2Proof

/-- A virtual address, a PTE and every data word: 64 bits, unsigned (00_scope R6 `XLEN`). -/
abbrev Word := BitVec 64

/-- One byte of the table store. -/
abbrev Byte := BitVec 8

end Sys2Proof
end

