-- ==== Sys2Proof/Config.lean ====
section
/-! DEFINITION. What is fixed for an instance of the block: the parameters of 00_scope R6 that the
definitions compute with, and the policy strap (00_scope R7). -/

namespace Sys2Proof

/-- The two replacement policies (10_state R26). -/
inductive Policy where
  | fifo
  | clock
  deriving DecidableEq, Repr, Inhabited

namespace Config

/-- `XLEN`, the width of a word (00_scope R6); the legal bit indices are those below it. -/
abbrev xlen : Nat := 64

/-- `LEVELS`, the page-table levels (00_scope R6). -/
abbrev levels : Nat := 4

/-- `IDX_BITS`, the width of one level index (00_scope R6). -/
abbrev idxBits : Nat := 9

/-- `OFF_BITS`, the width of the page offset (00_scope R6). -/
abbrev offBits : Nat := 12

/-- `VA_BITS`, the translated part of a virtual address (00_scope R6). -/
abbrev vaBits : Nat := levels * idxBits + offBits

/-- `PFN_BITS`, the width of a frame number (00_scope R6). -/
abbrev pfnBits : Nat := 40

/-- `PA_BITS`, the width of a physical address and of a table base (00_scope R6). -/
abbrev paBits : Nat := pfnBits + offBits

/-- The value the policy strap drives when the machine comes out of its first reset (10_state R26,
R39: "a parameter"). It has no body: nothing can be proved of which policy it is (DESIGN CHOICE, log 1). -/
opaque policyStrap : Policy

end Config

end Sys2Proof
end

