-- ==== Sys2Proof/Syntax.lean ====
section
/-! DEFINITION. The eleven commands (30_encoding R70) and the reasons a command word is illegal
(30_encoding R78). -/

namespace Sys2Proof

/-- One constructor per row of the opcode table. The operands `A` and `B` stand on the command port
(10_state R27), not in the command word; the only operand of the word is the bit index `n` of the
three bit commands (30_encoding R72), a number that is compared with 64 and used as a position. -/
inductive Instr where
  /-- SETBIT, R91. -/
  | setbit (n : Nat)
  /-- TESTBIT, R92. -/
  | testbit (n : Nat)
  /-- CLRBIT, R94. -/
  | clrbit (n : Nat)
  /-- IDX1, R101. -/
  | idx1
  /-- IDX2, R102. -/
  | idx2
  /-- IDX3, R103. -/
  | idx3
  /-- IDX4, R104. -/
  | idx4
  /-- PTE2PA, R107. -/
  | pte2pa
  /-- MAP, R122. -/
  | map
  /-- ACCESS, R123. -/
  | access
  /-- WALK, R166. -/
  | walk
  deriving DecidableEq, Repr

/-- Why a command word matches no row of 30_encoding R77 (R78 names the three kinds). The block
answers all of them alike; the names are the model's (DESIGN CHOICE, log 14). -/
inductive DecodeError where
  /-- `op` is 0x0 or 0xC to 0xF. -/
  | reservedOpcode
  /-- `op` is a command's, but `rsv` is not 0. -/
  | reservedField
  /-- `op` is 0x4 to 0xB and `rsv` is 0, but `n` is not 0. -/
  | indexField
  deriving DecidableEq, Repr

end Sys2Proof
end

