-- ==== Sys2Proof/WellFormed.lean ====
section
/-! DEFINITION. Which terms of `Instr` a command word can carry: the `n` field is 8 bits wide
(30_encoding R72). An index of 64 to 255 is well formed: it is a legal encoding, answered BAD_BITPOS
by the command's own rule (R78). -/

namespace Sys2Proof

/-- The bit index fits the 8-bit field `n` (30_encoding R71, R72). -/
def indexEncodable (n : Nat) : Bool := decide (n < 256)

/-- A command that some command word encodes. -/
def Instr.wellFormed : Instr → Bool
  | .setbit n => indexEncodable n
  | .testbit n => indexEncodable n
  | .clrbit n => indexEncodable n
  | .idx1 => true
  | .idx2 => true
  | .idx3 => true
  | .idx4 => true
  | .pte2pa => true
  | .map => true
  | .access => true
  | .walk => true

end Sys2Proof
end

