-- ==== Sys2Proof/Decode.lean ====
section
/-! DEFINITION. The decoder of 30_encoding R81, the opcode map of R77 as a table, the host's view of
the decoder, and the encoder (R71 to R73). -/

namespace Sys2Proof

/-- `op`, bits 3:0 of the command word (30_encoding R71). -/
def opField (w : BitVec 16) : BitVec 4 := w.extractLsb' 0 4

/-- `rsv`, bits 7:4 (30_encoding R71). -/
def rsvField (w : BitVec 16) : BitVec 4 := w.extractLsb' 4 4

/-- `n`, bits 15:8 (30_encoding R71). -/
def nField (w : BitVec 16) : BitVec 8 := w.extractLsb' 8 8

/-- Format B: `rsv` must be 0, any `n` is legal as an encoding (30_encoding R72, R78). -/
def decodeBitCommand (build : Nat → Instr) (w : BitVec 16) : Except DecodeError Instr :=
  if rsvField w = 0 then .ok (build (nField w).toNat) else .error .reservedField

/-- Formats U and P: `rsv` and `n` must both be 0 (30_encoding R73, R78). -/
def decodePlainCommand (i : Instr) (w : BitVec 16) : Except DecodeError Instr :=
  if rsvField w = 0 then
    if nField w = 0 then .ok i else .error .indexField
  else .error .reservedField

/-- The total decoder (30_encoding R81): it reads the command word and nothing else. -/
def decode (w : BitVec 16) : Except DecodeError Instr :=
  match (opField w).toNat with
  | 0x1 => decodeBitCommand .setbit w
  | 0x2 => decodeBitCommand .testbit w
  | 0x3 => decodeBitCommand .clrbit w
  | 0x4 => decodePlainCommand .idx1 w
  | 0x5 => decodePlainCommand .idx2 w
  | 0x6 => decodePlainCommand .idx3 w
  | 0x7 => decodePlainCommand .idx4 w
  | 0x8 => decodePlainCommand .pte2pa w
  | 0x9 => decodePlainCommand .map w
  | 0xA => decodePlainCommand .access w
  | 0xB => decodePlainCommand .walk w
  | _ => .error .reservedOpcode

/-- The decoder as the host asks for it: `w` numbers the command word's bits from 0, bits at `nbits`
and above are 0. A command is one 16-bit word on a port (30_encoding R71), so there is no byte order
to choose. -/
def decodeTableWord (nbits w : Nat) : Option Instr :=
  (decode (BitVec.ofNat 16 (w % 2 ^ nbits))).toOption

/-- A row of the opcode map: a word `w` selects it when `w &&& mask = pattern` (30_encoding R77, whose
column `match` is `pattern` here). -/
structure OpcodeRow where
  mask : BitVec 16
  pattern : BitVec 16
  build : Nat → Instr

/-- The eleven rows of 30_encoding R77, in its order. -/
def opcodeMap : List OpcodeRow :=
  [⟨0x00FF, 0x0001, .setbit⟩,
   ⟨0x00FF, 0x0002, .testbit⟩,
   ⟨0x00FF, 0x0003, .clrbit⟩,
   ⟨0xFFFF, 0x0004, fun _ => .idx1⟩,
   ⟨0xFFFF, 0x0005, fun _ => .idx2⟩,
   ⟨0xFFFF, 0x0006, fun _ => .idx3⟩,
   ⟨0xFFFF, 0x0007, fun _ => .idx4⟩,
   ⟨0xFFFF, 0x0008, fun _ => .pte2pa⟩,
   ⟨0xFFFF, 0x0009, fun _ => .map⟩,
   ⟨0xFFFF, 0x000A, fun _ => .access⟩,
   ⟨0xFFFF, 0x000B, fun _ => .walk⟩]

/-- `w` selects the row. -/
def OpcodeRow.selects (r : OpcodeRow) (w : BitVec 16) : Bool := w &&& r.mask == r.pattern

/-- The opcode `op` of a command (30_encoding R77). -/
def opcode : Instr → BitVec 4
  | .setbit _ => 0x1
  | .testbit _ => 0x2
  | .clrbit _ => 0x3
  | .idx1 => 0x4
  | .idx2 => 0x5
  | .idx3 => 0x6
  | .idx4 => 0x7
  | .pte2pa => 0x8
  | .map => 0x9
  | .access => 0xA
  | .walk => 0xB

/-- What the `n` field carries: the bit index in format B, 0 in formats U and P (30_encoding R72,
R73). -/
def indexOperand : Instr → Nat
  | .setbit n => n
  | .testbit n => n
  | .clrbit n => n
  | .idx1 => 0
  | .idx2 => 0
  | .idx3 => 0
  | .idx4 => 0
  | .pte2pa => 0
  | .map => 0
  | .access => 0
  | .walk => 0

/-- The command word of a well-formed command: `n` in 15:8, `rsv` 0 in 7:4, `op` in 3:0
(30_encoding R71). -/
def encode (i : Instr) : BitVec 16 :=
  BitVec.ofNat 8 (indexOperand i) ++ (0#4 ++ opcode i)

end Sys2Proof
end

