-- ==== Sys2Proof/Machine/State.lean ====
section
/-! DEFINITION. The state of the block (10_state), its ports, and the environment the step reads; the
state after reset (10_state R39, 70_reset R210). Plain data throughout. -/

namespace Sys2Proof.Machine

/-- Reasons the machine could stop. There are none: "Nothing halts the block, nothing is fatal"
(60_exceptions R180, R190). Every condition the spec names is a response, so no meaning raises a
fault, and the type has no constructor (DEDUCED, log 11). -/
inductive Fault where
  deriving DecidableEq, Repr

/-- Reasons the model declines an instruction. -/
inductive Refusal where
  /-- Raised by an arm of `exec` for an instruction without a meaning. Safe: nothing is claimed of it.
  No arm raises it in this model. -/
  | notModelled (mnemonic : String)
  deriving DecidableEq, Repr

/-- One slot of the frame table (10_state R20): `va` is the `virtual_address`, 0 when the slot is empty
(R21); `ref` is the `referenced` mark. -/
structure PageFrame where
  va : Word
  ref : Bool
  deriving DecidableEq, Repr

/-- The frame table: eight slots, the hand `first`, the next free position `last`, and the full mark
(10_state R20, R22, R23, R24). A cursor is a 3-bit number 0 to 7. -/
structure FrameTable where
  slots : Vector PageFrame 8
  first : Fin 8
  last : Fin 8
  isFull : Bool
  deriving DecidableEq, Repr

/-- A notification on the output port (10_state R28). -/
inductive Event where
  | evict (va : Word)
  | load (va : Word)
  deriving DecidableEq, Repr

/-- What the caller presents: the command word and the two operands (10_state R27, 30_encoding R71). -/
structure Command where
  cmd : BitVec 16
  a : Word
  b : Word
  deriving DecidableEq, Repr

/-- The statuses that are produced (30_encoding R75). -/
inductive Status where
  | ok
  | pageFault
  | illegalCmd
  | badBitpos
  deriving DecidableEq, Repr

/-- What a command answers, as it stands on the response port (10_state R29, 30_encoding R74); the
result is absent when it is not valid. -/
structure Response where
  status : BitVec 3
  info : BitVec 3
  result : Option Word
  deriving DecidableEq, Repr

/-- A request on the table-store read port: entry `index` of the table at `base` (20_memory R58). -/
structure TblReq where
  base : BitVec 52
  index : BitVec 9
  deriving DecidableEq, Repr

/-- The bytes of the external table store, in canonical form (`Memory.wf` in `Machine/Ops.lean`). -/
abbrev Memory := List Host.Cell

/-- What the caller may do between commands (70_reset R222). -/
inductive Input where
  /-- Present a command (10_state R27). -/
  | command (c : Command)
  /-- Apply reset with the strap at this value (70_reset R210, R211). -/
  | reset (strap : Policy)
  /-- Change what the table store answers for entry `index` of the table in frame `frame`
  (20_memory R57, R68). -/
  | tableWrite (frame : BitVec 40) (index : BitVec 9) (entry : Word)
  deriving DecidableEq, Repr

/-- The block, its ports, and its environment. -/
structure State where
  /-- The frame table (10_state R20 to R24). -/
  table : FrameTable
  /-- The strap as sampled at the last reset (10_state R26). -/
  policy : Policy
  /-- All events emitted since reset, oldest first (10_state R28). -/
  trace : List Event
  /-- The command being performed (10_state R27; DESIGN CHOICE, log 4). -/
  port : Command
  /-- All responses given since reset, oldest first (10_state R29; DESIGN CHOICE, log 5). -/
  responses : List Response
  /-- All table-store requests made since reset, oldest first (20_memory R58; DESIGN CHOICE, log 6). -/
  reads : List TblReq
  /-- Environment: the contents of the table store (20_memory R57, R60; PRESUMED, log 8). -/
  store : Memory
  /-- Environment: what the caller will do next (10_state R30, 70_reset R222; DESIGN CHOICE, log 2). -/
  inputs : List Input
  deriving DecidableEq, Repr

/-- An empty slot at reset (10_state R39: "all slots zeroed"). -/
def PageFrame.empty : PageFrame := ⟨0, false⟩

/-- The frame table as created (10_state R39). -/
def FrameTable.empty : FrameTable :=
  { slots := Vector.replicate 8 PageFrame.empty, first := 0, last := 0, isFull := false }

/-- The undriven command port (30_encoding R78; DESIGN CHOICE, log 4). -/
def Command.undriven : Command := ⟨0, 0, 0⟩

/-- The machine right after a reset with the strap at `strap` (10_state R39, 70_reset R210). -/
def State.resetWith (strap : Policy) : State :=
  { table := FrameTable.empty
    policy := strap
    trace := []
    port := Command.undriven
    responses := []
    reads := []
    store := []
    inputs := [] }

/-- The machine right after its first reset: the strap is the instance's parameter (DESIGN CHOICE, log 1). -/
def State.reset : State := State.resetWith Config.policyStrap

end Sys2Proof.Machine
end

