-- ==== Sys2Proof/Machine/Flags.lean ====
section
/-! DEFINITION. The three flags of a page-table entry and the operations on one bit of a word
(40_flag_decoder). The block has no flags register and no condition codes (10_state R32). -/

namespace Sys2Proof.Machine

/-- The flag enumeration (40_flag_decoder R90). -/
inductive Flag where
  | present
  | readWrite
  | userSupervisor
  deriving DecidableEq, Repr

/-- The bit position of a flag (40_flag_decoder R90). -/
def flagPosition : Flag → Nat
  | .present => 0
  | .readWrite => 1
  | .userSupervisor => 2

/-- `1 << n` (40_flag_decoder R91). -/
def bitMask (n : Nat) : Word := 1#64 <<< n

/-- `set_bit`: `A | (1 << n)` (40_flag_decoder R91). -/
def setBit (v : Word) (n : Nat) : Word := v ||| bitMask n

/-- `test_bit`: bit n of the word (40_flag_decoder R92). -/
def testBit (v : Word) (n : Nat) : Bool := v.getLsbD n

/-- `clear_bit`: `A & ~(1 << n)` (40_flag_decoder R94). -/
def clearBit (v : Word) (n : Nat) : Word := v &&& ~~~ bitMask n

/-- TESTBIT's boolean as a 64-bit result, 1 or 0 (40_flag_decoder R92). -/
def boolWord (b : Bool) : Word := if b then 1 else 0

/-- Whether a flag is set in an entry (40_flag_decoder R96). -/
def flagOf (f : Flag) (pte : Word) : Bool := testBit pte (flagPosition f)

/-- `present(p) = p[0]`, the one flag a translation checks (40_flag_decoder R96, 20_memory R64). -/
def isPresent (pte : Word) : Bool := flagOf .present pte

/-- The flag decoder's view of an entry: (present, readwrite, usersupervisor) (40_flag_decoder R96). -/
def decodeFlags (pte : Word) : Bool × Bool × Bool :=
  (flagOf .present pte, flagOf .readWrite pte, flagOf .userSupervisor pte)

end Sys2Proof.Machine
end

