-- ==== Sys2Proof/Machine/Operands.lean ====
section
/-! DEFINITION. The fields of the words the commands take: the virtual address (20_memory R51), the
page-table entry (R52) and the physical address (R53). -/

namespace Sys2Proof.Machine

/-- A page-table level, 1 the top (20_memory R57). -/
inductive Level where
  | one
  | two
  | three
  | four
  deriving DecidableEq, Repr

/-- The number k of a level (41_address_translator R105). -/
def levelNumber : Level → Nat
  | .one => 1
  | .two => 2
  | .three => 3
  | .four => 4

/-- The levels in the order a walk visits them (20_memory R58, 45_walker R166). -/
def walkOrder : List Level := [.one, .two, .three, .four]

/-- The bit offset `12 + 9*(4-k)` of the level-k index (41_address_translator R105). -/
def indexShift (k : Level) : Nat :=
  Config.offBits + Config.idxBits * (Config.levels - levelNumber k)

/-- `index_level_k`: the 9-bit index at that offset; bits 63:48 of the address take no part
(41_address_translator R105, 20_memory R55). -/
def indexLevel (k : Level) (va : Word) : BitVec 9 := va.extractLsb' (indexShift k) 9

/-- `page_offset`: the low 12 bits (41_address_translator R105). -/
def pageOffset (va : Word) : BitVec 12 := va.extractLsb' 0 12

/-- `frame_number`: bits 51:12 of an entry (20_memory R52). -/
def frameNumber (pte : Word) : BitVec 40 := pte.extractLsb' 12 40

/-- `zext_64` (00_scope R9). -/
def zext64 {m : Nat} (v : BitVec m) : Word := v.setWidth 64

/-- The base of the table a non-leaf entry or a root handle points at: bits 51:12, then twelve zeros
(20_memory R57). -/
def tableBase (handle : Word) : BitVec 52 := frameNumber handle ++ 0#12

/-- `(frame_number << 12) | (virtual_address & 0xFFF)` (20_memory R53, 41_address_translator R107). -/
def physicalAddress (pte va : Word) : Word :=
  (zext64 (frameNumber pte) <<< 12) ||| (va &&& 0xFFF)

end Sys2Proof.Machine
end

