-- ==== Sys2Proof/Machine/Ops.lean ====
section
/-! DEFINITION. The operations the meanings and the step share: the table store and its read port,
responding, raising a condition, and what the caller does between commands. -/

namespace Sys2Proof.Machine

/-! ### The table store (20_memory R57, R58, R60) -/

/-- What an address the store does not list reads as (DESIGN CHOICE, log 9). -/
def unlistedByte : Byte := 0

/-- The canonical form: addresses strictly rising and inside the 52-bit space (20_memory R50), no entry
equal to what an unlisted address reads as. -/
abbrev Memory.wf (m : Memory) : Prop :=
  m.Pairwise (fun c d => c.1 < d.1) ∧ ∀ c ∈ m, c.2 ≠ unlistedByte ∧ c.1 < 2 ^ 52

/-- The byte at an address. -/
def readByte : Memory → Nat → Byte
  | [], _ => unlistedByte
  | c :: m, a => if c.1 = a then c.2 else readByte m a

/-- Put a byte in front of a list whose addresses are all above `a`, unless it is what an unlisted
address reads as. -/
def consByte (a : Nat) (b : Byte) (m : Memory) : Memory :=
  if b = unlistedByte then m else (a, b) :: m

/-- Write a byte, keeping the canonical form. -/
def writeByte : Memory → Nat → Byte → Memory
  | [], a, b => consByte a b []
  | c :: m, a, b =>
    if a < c.1 then consByte a b (c :: m)
    else if c.1 = a then consByte a b m
    else c :: writeByte m a b

/-- Byte `k` of a word, 0 the least significant. -/
def byteOf (v : Word) (k : Nat) : Byte := v.extractLsb' (8 * k) 8

/-- The address of entry `i` of the table at `base`: `base + 8*i` (20_memory R60; PRESUMED, log 8). -/
def entryAddress (base : BitVec 52) (i : BitVec 9) : Nat := base.toNat + 8 * i.toNat

/-- The eight bytes at `a`, least significant first (20_memory R60; PRESUMED, log 8). -/
def readWord (m : Memory) (a : Nat) : Word :=
  readByte m (a + 7) ++ readByte m (a + 6) ++ readByte m (a + 5) ++ readByte m (a + 4) ++
    readByte m (a + 3) ++ readByte m (a + 2) ++ readByte m (a + 1) ++ readByte m a

/-- Store eight bytes at `a`, least significant first. -/
def writeWord (m : Memory) (a : Nat) (v : Word) : Memory :=
  [0, 1, 2, 3, 4, 5, 6, 7].foldl (fun m k => writeByte m (a + k) (byteOf v k)) m

/-- `TblRead(base, i)`: it always answers a whole 64-bit word and has no side effect on the store
(20_memory R58, R62; DEDUCED, log 10). -/
def tblRead (m : Memory) (r : TblReq) : Word := readWord m (entryAddress r.base r.index)

/-- Record the requests a command made on the read port (20_memory R58; DESIGN CHOICE, log 6). -/
def recordReads (rs : List TblReq) (s : State) : State := { s with reads := s.reads ++ rs }

/-! ### Responses and conditions (30_encoding R74 to R76, 60_exceptions R180 to R188) -/

/-- The status code on the port (30_encoding R75). -/
def statusCode : Status → BitVec 3
  | .ok => 0
  | .pageFault => 1
  | .illegalCmd => 2
  | .badBitpos => 3

/-- `respond(status, info, result)`: end the command with this response (00_scope R10). -/
def respond (st : Status) (info : BitVec 3) (result : Option Word) (s : State) : State :=
  { s with responses := s.responses ++ [⟨statusCode st, info, result⟩] }

/-- A value-giving command completed: status OK, info 0, a valid result (30_encoding R74, R76). -/
def respondValue (v : Word) (s : State) : State := respond .ok 0 (some v) s

/-- Taking a condition, the block's only exception: the command's response is the whole effect, with no
result; nothing is saved, redirected or masked (60_exceptions R181, R188). There is nothing to
return from, so no operation stands for a return (R189). -/
def raiseCondition (st : Status) (info : BitVec 3) (s : State) : State := respond st info none s

/-- `raise PageFault(info)` (60_exceptions R181). -/
def raisePageFault (info : BitVec 3) (s : State) : State := raiseCondition .pageFault info s

/-- The answer to a bit command with `n >= 64` (40_flag_decoder R93, 60_exceptions R185). -/
def raiseBadBitIndex (s : State) : State := raiseCondition .badBitpos 0 s

/-- The answer to an illegal command word (60_exceptions R184). -/
def raiseIllegalCommand (s : State) : State := raiseCondition .illegalCmd 0 s

/-! ### What happens between commands (70_reset R211, R222) -/

/-- The caller presents the command `c`; `rest` is what it will do afterwards (10_state R27). -/
def present (c : Command) (rest : List Input) (s : State) : State :=
  { s with port := c, inputs := rest }

/-- A reset with the strap at `strap`: the block is as newly built; the environment, that is the table
store and the caller's further inputs, is not the block's and stays (70_reset R210, R211;
DESIGN CHOICE, log 7). -/
def applyReset (strap : Policy) (rest : List Input) (s : State) : State :=
  { State.resetWith strap with store := s.store, inputs := rest }

/-- The caller changes one entry of the table store (20_memory R68, 70_reset R222). -/
def applyTableWrite (frame : BitVec 40) (index : BitVec 9) (entry : Word) (rest : List Input)
    (s : State) : State :=
  { s with store := writeWord s.store (entryAddress (frame ++ 0#12) index) entry, inputs := rest }

/-- The caller presents nothing: the block is idle and keeps all its state (60_exceptions R194,
70_reset R214; DESIGN CHOICE, log 2). -/
def idle (s : State) : State := s

end Sys2Proof.Machine
end

