-- ==== Sys2Proof/Machine/FlagDecoder.lean ====
section
/-! DEFINITION. The flag decoder: SETBIT, TESTBIT, CLRBIT (40_flag_decoder). -/

namespace Sys2Proof.Machine

/-- A bit command: the index is checked before anything else (40_flag_decoder R93); `value` is the
command's result on operand `A`. Operand `B` is ignored. -/
def bitCommand (n : Nat) (value : Word → Word) (s : State) : State :=
  if n < Config.xlen then respondValue (value s.port.a) s else raiseBadBitIndex s

/-- SETBIT (40_flag_decoder R91). -/
def execSetbit (n : Nat) (s : State) : Host.Outcome State Fault Refusal :=
  .next (bitCommand n (fun a => setBit a n) s)

/-- TESTBIT (40_flag_decoder R92). -/
def execTestbit (n : Nat) (s : State) : Host.Outcome State Fault Refusal :=
  .next (bitCommand n (fun a => boolWord (testBit a n)) s)

/-- CLRBIT (40_flag_decoder R94). -/
def execClrbit (n : Nat) (s : State) : Host.Outcome State Fault Refusal :=
  .next (bitCommand n (fun a => clearBit a n) s)

end Sys2Proof.Machine
end

