-- ==== Sys2Proof/Machine/FrameOps.lean ====
section
/-! DEFINITION. The frame table's shared procedures: lookup, insertion, replacement, and the answer both
policies give (42_frame_table_common). -/

namespace Sys2Proof.Machine

/-- The slots in index order. -/
def allSlots : List (Fin 8) := [0, 1, 2, 3, 4, 5, 6, 7]

/-- `slot[i]` (00_scope R10, 10_state R20). -/
def FrameTable.slot (t : FrameTable) (i : Fin 8) : PageFrame := t.slots[i]

/-- `inc8(c) = (c + 1) mod 8` (00_scope R11); the sum of `Fin 8` is modulo 8. -/
def inc8 (c : Fin 8) : Fin 8 := c + 1

/-- `find(va)`: the lowest slot holding exactly `va`, all 64 bits compared (42_frame_table R121). -/
def find (va : Word) (t : FrameTable) : Option (Fin 8) :=
  allSlots.find? (fun i => (t.slot i).va == va)

/-- `slot[i].ref <- b` (00_scope R10). -/
def setRef (i : Fin 8) (b : Bool) (t : FrameTable) : FrameTable :=
  { t with slots := t.slots.set i { t.slot i with ref := b } }

/-- `slot[i].va <- va` (00_scope R10). -/
def setVa (i : Fin 8) (va : Word) (t : FrameTable) : FrameTable :=
  { t with slots := t.slots.set i { t.slot i with va := va } }

/-- The slot writes of a load: the address, and the `ref` bit where the policy writes it (`r` is `none`
under FIFO, `some true` under CLOCK; 42_frame_table R128, 43_fifo R143, 44_clock R155). -/
def loadSlot (i : Fin 8) (va : Word) (r : Option Bool) (t : FrameTable) : FrameTable :=
  match r with
  | none => setVa i va t
  | some b => setRef i b (setVa i va t)

/-- `insert_free(va, r)`: the test against `first` is made after `last` has advanced
(42_frame_table R128). -/
def insertFree (va : Word) (r : Option Bool) (t : FrameTable) : FrameTable :=
  let u := loadSlot t.last va r t
  { u with
    last := inc8 t.last
    isFull := if inc8 t.last = t.first then true else t.isFull }

/-- `replace_at_first(va, r)`: the hand moves past the slot just loaded and `last` follows it
(42_frame_table R129). -/
def replaceAtFirst (va : Word) (r : Option Bool) (t : FrameTable) : FrameTable :=
  let u := loadSlot t.first va r t
  { u with first := inc8 t.first, last := inc8 t.first }

/-- The case MAP or ACCESS took (42_frame_table R130). -/
inductive MapCase where
  | ignored
  | hit
  | loaded
  | replaced
  deriving DecidableEq, Repr

/-- The outcome code in `info` (42_frame_table R130). -/
def outcomeCode : MapCase → BitVec 3
  | .ignored => 0
  | .hit => 1
  | .loaded => 2
  | .replaced => 3

/-- What a policy makes of an address: the new table, the events in order, the case. -/
structure MapAnswer where
  table : FrameTable
  events : List Event
  outcome : MapCase
  deriving DecidableEq, Repr

/-- The sentinel is ignored: no state change, no event (42_frame_table R124). -/
def answerIgnored (t : FrameTable) : MapAnswer := ⟨t, [], .ignored⟩

/-- A hit, with the table after the policy's bookkeeping; no event (42_frame_table R126). -/
def answerHit (t : FrameTable) : MapAnswer := ⟨t, [], .hit⟩

/-- Insertion into free capacity: exactly one LOAD (42_frame_table R126, R128). -/
def answerLoaded (va : Word) (r : Option Bool) (t : FrameTable) : MapAnswer :=
  ⟨insertFree va r t, [.load va], .loaded⟩

/-- Replacement at the hand: EVICT of the victim, then LOAD (42_frame_table R126, R129). -/
def answerReplaced (va : Word) (r : Option Bool) (t : FrameTable) : MapAnswer :=
  ⟨replaceAtFirst va r t, [.evict (t.slot t.first).va, .load va], .replaced⟩

/-- The command takes effect: the table, the events appended to the trace, status OK with the outcome
code and no result (42_frame_table R120, R126, R130). -/
def commitAnswer (m : MapAnswer) (s : State) : State :=
  respond .ok (outcomeCode m.outcome) none { s with table := m.table, trace := s.trace ++ m.events }

end Sys2Proof.Machine
end

