-- ==== Sys2Proof/Machine/Clock.lean ====
section
/-! DEFINITION. The CLOCK policy (44_clock_policy): the hand, the eviction scan, and a fresh page that
counts as referenced (R155). -/

namespace Sys2Proof.Machine

/-- The loop tests of one eviction scan: at most nine (44_clock R154). -/
def scanFuel : Nat := 9

/-- `clock_scan`: while the slot at the hand is referenced, clear its bit and advance the hand
(44_clock R153). The loop tests at most `scanFuel` times, which R154 shows to be enough. -/
def clockScan : Nat → FrameTable → FrameTable
  | 0, t => t
  | fuel + 1, t =>
    if (t.slot t.first).ref then
      clockScan fuel { setRef t.first false t with first := inc8 t.first }
    else t

/-- The hit rule: the slot's `ref` becomes 1, nothing else changes (44_clock R152). -/
def touchSlot (i : Fin 8) (t : FrameTable) : FrameTable := setRef i true t

/-- MAP under CLOCK (44_clock R150). -/
def mapClock (va : Word) (t : FrameTable) : MapAnswer :=
  if va = 0 then answerIgnored t
  else match find va t with
    | some i => answerHit (touchSlot i t)
    | none =>
      if t.isFull then answerReplaced va (some true) (clockScan scanFuel t)
      else answerLoaded va (some true) t

/-- ACCESS under CLOCK: the hit rule on a hit, MAP on a miss (44_clock R151). -/
def accessClock (va : Word) (t : FrameTable) : MapAnswer :=
  if va = 0 then answerIgnored t
  else match find va t with
    | some i => answerHit (touchSlot i t)
    | none => mapClock va t

end Sys2Proof.Machine
end

