-- ==== Sys2Proof/Machine/Fifo.lean ====
section
/-! DEFINITION. The FIFO policy (43_fifo_policy): `ref` bits are neither read nor written (R143). -/

namespace Sys2Proof.Machine

/-- MAP under FIFO (43_fifo R140). -/
def mapFifo (va : Word) (t : FrameTable) : MapAnswer :=
  if va = 0 then answerIgnored t
  else match find va t with
    | some _ => answerHit t
    | none => if t.isFull then answerReplaced va none t else answerLoaded va none t

/-- ACCESS under FIFO: a strict no-op on a hit, MAP on a miss (43_fifo R141). -/
def accessFifo (va : Word) (t : FrameTable) : MapAnswer :=
  if va = 0 then answerIgnored t
  else match find va t with
    | some _ => answerHit t
    | none => mapFifo va t

end Sys2Proof.Machine
end

