-- ==== Sys2Proof/Machine/Replacement.lean ====
section
/-! DEFINITION. MAP and ACCESS: the dispatch on the policy (42_frame_table R122, R123). -/

namespace Sys2Proof.Machine

/-- MAP's dispatch (42_frame_table R122). -/
def mapByPolicy : Policy → Word → FrameTable → MapAnswer
  | .fifo => mapFifo
  | .clock => mapClock

/-- ACCESS's dispatch (42_frame_table R123). -/
def accessByPolicy : Policy → Word → FrameTable → MapAnswer
  | .fifo => accessFifo
  | .clock => accessClock

/-- MAP (42_frame_table R122); operand `B` is ignored. -/
def execMap (s : State) : Host.Outcome State Fault Refusal :=
  .next (commitAnswer (mapByPolicy s.policy s.port.a s.table) s)

/-- ACCESS (42_frame_table R123); operand `B` is ignored. -/
def execAccess (s : State) : Host.Outcome State Fault Refusal :=
  .next (commitAnswer (accessByPolicy s.policy s.port.a s.table) s)

end Sys2Proof.Machine
end

