-- ==== Sys2Proof/Machine/Translator.lean ====
section
/-! DEFINITION. The address translator: IDX1 to IDX4 and PTE2PA (41_address_translator). -/

namespace Sys2Proof.Machine

/-- The level-k index of operand `A`, zero extended (41_address_translator R101 to R105). -/
def respondIndex (k : Level) (s : State) : State :=
  respondValue (zext64 (indexLevel k s.port.a)) s

/-- IDX1 (41_address_translator R101). -/
def execIdx1 (s : State) : Host.Outcome State Fault Refusal := .next (respondIndex .one s)

/-- IDX2 (41_address_translator R102). -/
def execIdx2 (s : State) : Host.Outcome State Fault Refusal := .next (respondIndex .two s)

/-- IDX3 (41_address_translator R103). -/
def execIdx3 (s : State) : Host.Outcome State Fault Refusal := .next (respondIndex .three s)

/-- IDX4 (41_address_translator R104). -/
def execIdx4 (s : State) : Host.Outcome State Fault Refusal := .next (respondIndex .four s)

/-- `pte_to_physical`: no address when PRESENT is clear, the only check made (41_address_translator
R107, R108; 20_memory R64). -/
def pteToPhysical (pte va : Word) : Option Word :=
  if isPresent pte then some (physicalAddress pte va) else none

/-- The response of `pte_to_physical` (41_address_translator R107, R108). -/
def respondPhysical (pte va : Word) (s : State) : State :=
  match pteToPhysical pte va with
  | some pa => respondValue pa s
  | none => raisePageFault 0 s

/-- PTE2PA: `A` is the PTE, `B` the virtual address (41_address_translator R107, 30_encoding R73). -/
def execPte2pa (s : State) : Host.Outcome State Fault Refusal :=
  .next (respondPhysical s.port.a s.port.b s)

end Sys2Proof.Machine
end

