-- ==== Sys2Proof/Machine/Walker.lean ====
section
/-! DEFINITION. The page-table walker: WALK (45_walker). All of it rests on the spec's decision D11
(DEDUCED, log 15). -/

namespace Sys2Proof.Machine

/-- A finished walk: the requests made, in order, and either the level whose entry was not present or
the level-4 entry, the PTE. -/
structure WalkRun where
  reads : List TblReq
  ended : Except Level Word

/-- The walk over the remaining levels. `handle` is the word whose bits 51:12 name the table to read:
the root operand at first, then the entry just read (20_memory R57, 45_walker R166). It stops at
the first entry whose PRESENT is clear (45_walker R167). -/
def walkLevels (m : Memory) (va : Word) : List Level → Word → WalkRun
  | [], handle => ⟨[], .ok handle⟩
  | k :: ks, handle =>
    let r : TblReq := ⟨tableBase handle, indexLevel k va⟩
    let e := tblRead m r
    if isPresent e then
      let w := walkLevels m va ks e
      { w with reads := r :: w.reads }
    else ⟨[r], .error k⟩

/-- The response of a finished walk (45_walker R166, R167). -/
def respondWalk (va : Word) (ended : Except Level Word) (s : State) : State :=
  match ended with
  | .ok pte => respondValue (physicalAddress pte va) s
  | .error k => raisePageFault (BitVec.ofNat 3 (levelNumber k)) s

/-- WALK: `A` is the virtual address, `B` the root handle (45_walker R166). -/
def walkCommand (s : State) : State :=
  let w := walkLevels s.store s.port.a walkOrder s.port.b
  respondWalk s.port.a w.ended (recordReads w.reads s)

/-- WALK (45_walker R166). -/
def execWalk (s : State) : Host.Outcome State Fault Refusal := .next (walkCommand s)

end Sys2Proof.Machine
end

