-- ==== Sys2Proof/Machine/Dispatch.lean ====
section
/-! DEFINITION. One arm per command of 30_encoding R70. -/

namespace Sys2Proof.Machine

def exec (i : Instr) (s : State) : Host.Outcome State Fault Refusal :=
  match i with
  | .setbit n => Sys2Proof.Machine.execSetbit n s
  | .testbit n => Sys2Proof.Machine.execTestbit n s
  | .clrbit n => Sys2Proof.Machine.execClrbit n s
  | .idx1 => Sys2Proof.Machine.execIdx1 s
  | .idx2 => Sys2Proof.Machine.execIdx2 s
  | .idx3 => Sys2Proof.Machine.execIdx3 s
  | .idx4 => Sys2Proof.Machine.execIdx4 s
  | .pte2pa => Sys2Proof.Machine.execPte2pa s
  | .map => Sys2Proof.Machine.execMap s
  | .access => Sys2Proof.Machine.execAccess s
  | .walk => Sys2Proof.Machine.execWalk s

end Sys2Proof.Machine
end

