-- ==== Sys2Proof/Machine/Step.lean ====
section
/-! DEFINITION. One step: the caller's next input. A command is decoded and performed as one
indivisible step (00_scope R12). -/

namespace Sys2Proof.Machine

/-- Perform the command on the port: an illegal word is answered and never looked at further
(60_exceptions R184, R187). -/
def runPort (s : State) : Host.Outcome State Fault Refusal :=
  match decode s.port.cmd with
  | .ok i => exec i s
  | .error _ => .next (raiseIllegalCommand s)

/-- One step of the machine (70_reset R222 lists what the caller may do next). -/
def step (s : State) : Host.Outcome State Fault Refusal :=
  match s.inputs with
  | [] => .next (idle s)
  | .command c :: rest => runPort (present c rest s)
  | .reset strap :: rest => .next (applyReset strap rest s)
  | .tableWrite frame index entry :: rest => .next (applyTableWrite frame index entry rest s)

/-- `s` where the caller's next input is the command whose word is `w`, with both operands 0
(DESIGN CHOICE, log 3). -/
def State.withFetchWord (s : State) (nbits w : Nat) : State :=
  { s with inputs := .command ⟨BitVec.ofNat 16 (w % 2 ^ nbits), 0, 0⟩ :: s.inputs }

end Sys2Proof.Machine
end

