-- ==== Sys2Proof/Machine/Caller.lean ====
section
/-! DEFINITION. The caller's side of the interface: what a single command answers, the written form of
command listings (30_encoding R82, R83), and the walk a caller makes out of the primitive commands
(45_walker R170). The step uses none of it. -/

namespace Sys2Proof.Machine

/-- What command `i` answers in state `s` when it is presented with these operands. -/
def answer (i : Instr) (a b : Word) (s : State) : Option Response :=
  match exec i { s with port := ⟨encode i, a, b⟩ } with
  | .next t => (t.responses.drop s.responses.length).head?
  | .fault _ => none
  | .refused _ => none

/-- The valid result of that answer. -/
def answerValue (i : Instr) (a b : Word) (s : State) : Option Word :=
  (answer i a b s).bind (fun r => r.result)

/-! ### Listings (30_encoding R82, R83) -/

/-- `setflag A, F` is `setbit A, F` (30_encoding R83). -/
def setflag (f : Flag) : Instr := .setbit (flagPosition f)

/-- `testflag A, F` is `testbit A, F` (30_encoding R83). -/
def testflag (f : Flag) : Instr := .testbit (flagPosition f)

/-- `clrflag A, F` is `clrbit A, F` (30_encoding R83). -/
def clrflag (f : Flag) : Instr := .clrbit (flagPosition f)

/-- An operand of a listing: a literal, or `%k`, the valid result of line `k` (lines are numbered from 1,
as in 95_test_vectors P3; DEDUCED, log 16). -/
inductive ListingOperand where
  | literal (v : Word)
  | resultOf (line : Nat)
  deriving DecidableEq, Repr

/-- One line of a listing; `b` is not looked at by a command that ignores `B` (30_encoding R79). -/
structure ListingLine where
  instr : Instr
  a : ListingOperand
  b : ListingOperand
  deriving DecidableEq, Repr

/-- The caller's substitution of an operand, given the responses of the lines so far; `none` when `%k`
names a line that gave no valid result, which makes the listing ill formed (30_encoding R82). -/
def substituteOperand (answers : List Response) : ListingOperand → Option Word
  | .literal v => some v
  | .resultOf line =>
    match line with
    | 0 => none
    | k + 1 => answers[k]?.bind (fun r => r.result)

/-- The command a line stands for (30_encoding R82). -/
def assembleLine (answers : List Response) (l : ListingLine) : Option Command :=
  match substituteOperand answers l.a, substituteOperand answers l.b with
  | some a, some b => if l.instr.wellFormed then some ⟨encode l.instr, a, b⟩ else none
  | _, _ => none

/-! ### The walk out of primitives (45_walker R170) -/

/-- The index command of a level (30_encoding R70). -/
def indexInstr : Level → Instr
  | .one => .idx1
  | .two => .idx2
  | .three => .idx3
  | .four => .idx4

/-- The caller's own walk: the level's index command, a read of the table, TESTBIT of PRESENT, and at
the end PTE2PA (45_walker R170). A missing entry is reported as WALK reports it, by level. -/
def callerWalk (s : State) (va : Word) : List Level → Word → Option Response
  | [], pte => answer .pte2pa pte va s
  | k :: ks, handle =>
    match answerValue (indexInstr k) va 0 s with
    | none => none
    | some i =>
      let e := tblRead s.store ⟨tableBase handle, i.setWidth 9⟩
      match answerValue (testflag .present) e 0 s with
      | none => none
      | some p =>
        if p = 0 then some ⟨statusCode .pageFault, BitVec.ofNat 3 (levelNumber k), none⟩
        else callerWalk s va ks e

end Sys2Proof.Machine
end

