-- ==== Sys2Proof/Safety.lean ====
section
/-! DEFINITION. What counts as a safe run, and the invariants the spec states of the frame table, in the
terms the claims use. -/

namespace Sys2Proof.Machine

/-! ### Runs without a caller's error (60_exceptions R184, R185) -/

/-- A response that tells the caller it went wrong: ILLEGAL_CMD or BAD_BITPOS. The spec asks a model to
count a run that reaches one as faulted, though the block goes on (R184, R185; DEDUCED, log 11). -/
def Response.callerError (r : Response) : Bool :=
  r.status == statusCode .illegalCmd || r.status == statusCode .badBitpos

/-- No command since reset was a caller's error. -/
def State.safe (s : State) : Bool := s.responses.all (fun r => !r.callerError)

/-- A bit index a bit command has a meaning for (40_flag_decoder R93); other commands have none. -/
def legalIndex (i : Instr) : Bool := decide (indexOperand i < Config.xlen)

/-- An input that is no caller's error: any input but an illegal command word and a bit command with an
index above 63. -/
def Input.sound : Input → Bool
  | .command c => match decode c.cmd with
    | .ok i => legalIndex i
    | .error _ => false
  | .reset _ => true
  | .tableWrite _ _ _ => true

/-! ### Invariants of the frame table (10_state R33 to R38) -/

/-- No non-zero address stands in two slots (10_state R33). -/
abbrev FrameTable.noDuplicates (t : FrameTable) : Prop :=
  ∀ i j : Fin 8, i ≠ j → (t.slot i).va ≠ 0 → (t.slot i).va ≠ (t.slot j).va

/-- While not full, the hand is at 0, the slots below `last` are occupied and the others empty
(10_state R34). -/
abbrev FrameTable.filling (t : FrameTable) : Prop :=
  t.isFull = false → t.first = 0 ∧ ∀ i : Fin 8, (t.slot i).va ≠ 0 ↔ i < t.last

/-- Once full, the cursors agree and every slot is occupied (10_state R35). -/
abbrev FrameTable.fullRing (t : FrameTable) : Prop :=
  t.isFull = true → t.first = t.last ∧ ∀ i : Fin 8, (t.slot i).va ≠ 0

/-- The `ref` bit of an empty slot is 0 (10_state R21). -/
abbrev FrameTable.emptyUnreferenced (t : FrameTable) : Prop :=
  ∀ i : Fin 8, (t.slot i).va = 0 → (t.slot i).ref = false

/-- The invariants of the frame table together (10_state R21, R33, R34, R35). -/
abbrev FrameTable.Inv (t : FrameTable) : Prop :=
  t.noDuplicates ∧ t.filling ∧ t.fullRing ∧ t.emptyUnreferenced

/-- Under FIFO every `ref` bit is 0 (10_state R37). -/
abbrev State.fifoRefsClear (s : State) : Prop :=
  s.policy = .fifo → ∀ i : Fin 8, (s.table.slot i).ref = false

/-- `size`, the number of resident addresses (10_state R25). -/
def FrameTable.size (t : FrameTable) : Nat := allSlots.countP (fun i => (t.slot i).va != 0)

/-- A non-zero address is resident when some slot holds it (42_frame_table R121). -/
abbrev FrameTable.resident (va : Word) (t : FrameTable) : Prop :=
  va ≠ 0 ∧ ∃ i : Fin 8, (t.slot i).va = va

/-! ### The trace (42_frame_table R126, 43_fifo R142) -/

/-- The address of a LOAD event. -/
def Event.loaded? : Event → Option Word
  | .load va => some va
  | .evict _ => none

/-- The address of an EVICT event. -/
def Event.evicted? : Event → Option Word
  | .evict va => some va
  | .load _ => none

/-- The addresses loaded, in order. -/
def loadsOf (l : List Event) : List Word := l.filterMap Event.loaded?

/-- The addresses evicted, in order. -/
def evictsOf (l : List Event) : List Word := l.filterMap Event.evicted?

/-- The slot `k` places round the ring from the hand (00_scope R11). -/
def ringSlot (t : FrameTable) (k : Nat) : Fin 8 := t.first + Fin.ofNat 8 k

/-- The resident addresses from the hand on: all eight when full, otherwise those below `last`
(00_scope R11, 10_state R34, R35). -/
def FrameTable.ringOrder (t : FrameTable) : List Word :=
  (List.range (if t.isFull then 8 else t.last.val)).map (fun k => (t.slot (ringSlot t k)).va)

/-- FIFO's order: what was loaded is what was evicted followed by what is resident, oldest first
(43_fifo R142). So the k-th EVICT names the k-th LOAD. -/
abbrev State.fifoOrder (s : State) : Prop :=
  s.policy = .fifo → loadsOf s.trace = evictsOf s.trace ++ s.table.ringOrder

/-- A response of MAP or ACCESS that loaded a page: LOADED or REPLACED (42_frame_table R130). -/
def Response.isMiss (r : Response) : Bool :=
  r.status == statusCode .ok &&
    (r.info == outcomeCode .loaded || r.info == outcomeCode .replaced)

/-- A response of MAP or ACCESS that evicted a page: REPLACED (42_frame_table R130). -/
def Response.isEviction (r : Response) : Bool :=
  r.status == statusCode .ok && r.info == outcomeCode .replaced

/-- As many LOAD events as misses, as many EVICT events as misses on a full table
(42_frame_table R126). -/
abbrev State.eventsCounted (s : State) : Prop :=
  (loadsOf s.trace).length = s.responses.countP Response.isMiss ∧
    (evictsOf s.trace).length = s.responses.countP Response.isEviction

/-- Before the first eviction the hand has not moved, the pages loaded are the residents in slot order, and
under CLOCK every resident page counts as referenced (44_clock R155, R156). -/
abbrev State.beforeFirstEviction (s : State) : Prop :=
  evictsOf s.trace = [] → s.table.first = 0 ∧ loadsOf s.trace = s.table.ringOrder ∧
    (s.policy = .clock → ∀ i : Fin 8, (s.table.slot i).va ≠ 0 → (s.table.slot i).ref = true)

/-- A response the port can carry (30_encoding R74 to R76): status 0 to 3, info 0 to 4, a result only
with status OK, and info 0 with any result. -/
def Response.legal (r : Response) : Bool :=
  decide (r.status.toNat ≤ 3) && decide (r.info.toNat ≤ 4) &&
    (r.result.isNone || (r.status == statusCode .ok && r.info == 0))

/-- The state invariant of the block: all the claims that every step keeps. -/
abbrev State.Inv (s : State) : Prop :=
  s.table.Inv ∧ s.fifoRefsClear ∧ s.fifoOrder ∧ s.eventsCounted ∧ s.beforeFirstEviction ∧
    (s.responses.all Response.legal = true) ∧ s.store.wf

end Sys2Proof.Machine
end

