-- ==== Sys2Proof/Certificates/Slice0/Obligations.lean ====
section
/-! DEFINITION. The statements for the provers. Responses are written as they stand on the port: status 0
OK, 1 PAGE_FAULT, 2 ILLEGAL_CMD, 3 BAD_BITPOS (30_encoding R75). A next state written as `{ s with … }`
says at once the effect, the frame (everything not named is unchanged) and that the command completes. -/

open Sys2Proof Sys2Proof.Machine

/-! ### Encoding -/

/-- 30_encoding R71 to R73, R77, R81: no bit of an encoding is dropped. -/
def Obligations.DecodeUndoesEncode : Prop :=
  ∀ i : Instr, i.wellFormed = true → decode (encode i) = .ok i

/-- 30_encoding R77, R81: every legal word has one meaning and one encoding. -/
def Obligations.EncodeUndoesDecode : Prop :=
  ∀ (w : BitVec 16) (i : Instr), decode w = .ok i → i.wellFormed = true ∧ encode i = w

/-- 30_encoding R77: the decoder accepts exactly the words that select a row of the opcode map, as that
row's command with `n` from the high byte; at most one row matches any word. -/
def Obligations.DecodeFollowsOpcodeMap : Prop :=
  (∀ (w : BitVec 16) (i : Instr),
    decode w = .ok i ↔ ∃ r ∈ opcodeMap, r.selects w = true ∧ i = r.build (w.toNat / 256)) ∧
  (∀ w : BitVec 16, (opcodeMap.filter (fun r => r.selects w)).length ≤ 1)

/-- 30_encoding R81: the decoder's procedure, in the fields `op`, `rsv` and `n` of the word. -/
def Obligations.DecoderProcedure : Prop :=
  ∀ w : BitVec 16,
    let op := w.toNat % 16
    let rsv := w.toNat / 16 % 16
    let n := w.toNat / 256
    (op = 1 → rsv = 0 → decode w = .ok (.setbit n)) ∧
    (op = 2 → rsv = 0 → decode w = .ok (.testbit n)) ∧
    (op = 3 → rsv = 0 → decode w = .ok (.clrbit n)) ∧
    (op = 4 → rsv = 0 → n = 0 → decode w = .ok .idx1) ∧
    (op = 5 → rsv = 0 → n = 0 → decode w = .ok .idx2) ∧
    (op = 6 → rsv = 0 → n = 0 → decode w = .ok .idx3) ∧
    (op = 7 → rsv = 0 → n = 0 → decode w = .ok .idx4) ∧
    (op = 8 → rsv = 0 → n = 0 → decode w = .ok .pte2pa) ∧
    (op = 9 → rsv = 0 → n = 0 → decode w = .ok .map) ∧
    (op = 10 → rsv = 0 → n = 0 → decode w = .ok .access) ∧
    (op = 11 → rsv = 0 → n = 0 → decode w = .ok .walk) ∧
    ((op = 0 ∨ 12 ≤ op ∨ rsv ≠ 0 ∨ (4 ≤ op ∧ n ≠ 0)) → ∃ e, decode w = .error e)

/-- 95_test_vectors 2.1: a few command words written out from 30_encoding R77. -/
def Obligations.DecodedWords : Prop :=
  decode 0x3F01 = .ok (.setbit 63) ∧ decode 0x0202 = .ok (.testbit 2) ∧
  decode 0xFF03 = .ok (.clrbit 255) ∧ decode 0x0006 = .ok .idx3 ∧ decode 0x0008 = .ok .pte2pa ∧
  decode 0x0009 = .ok .map ∧ decode 0x000A = .ok .access ∧ decode 0x000B = .ok .walk ∧
  decode 0x0000 = .error .reservedOpcode ∧ decode 0x000C = .error .reservedOpcode ∧
  decode 0x4011 = .error .reservedField ∧ decode 0x0109 = .error .indexField

/-- 30_encoding R83, 40_flag_decoder R90: the pseudo-instructions are the bit commands at the flag's
position, and each acts on the named flag alone. -/
def Obligations.FlagCommandsActOnNamedFlag : Prop :=
  (encode (setflag .present) = 0x0001 ∧ encode (testflag .present) = 0x0002 ∧
    encode (clrflag .present) = 0x0003 ∧ encode (setflag .readWrite) = 0x0101 ∧
    encode (testflag .readWrite) = 0x0102 ∧ encode (clrflag .readWrite) = 0x0103 ∧
    encode (setflag .userSupervisor) = 0x0201 ∧ encode (testflag .userSupervisor) = 0x0202 ∧
    encode (clrflag .userSupervisor) = 0x0203) ∧
  ∀ (f g : Flag) (a b : Word) (s : State), ∃ x y,
    answerValue (setflag f) a b s = some x ∧ flagOf g x = (g == f || flagOf g a) ∧
    answerValue (clrflag f) a b s = some y ∧ flagOf g y = (g != f && flagOf g a) ∧
    answerValue (testflag f) a b s = some (if flagOf f a then 1 else 0)

/-- 30_encoding R82: a well-formed line whose operands substitute assembles to the word of its command with
those operands, and a line that assembles has that form; a literal stands for itself and `%k` for the
valid result of line `k`; in either operand a `%k` whose line gave no valid result, or that names no
line answered so far, makes the listing ill formed (lines count from 1, log 16). -/
def Obligations.AssembledLineIsItsCommand : Prop :=
  ∀ (answers : List Response) (l : ListingLine),
    (∀ c, assembleLine answers l = some c →
      decode c.cmd = .ok l.instr ∧ substituteOperand answers l.a = some c.a ∧
        substituteOperand answers l.b = some c.b) ∧
    (∀ a b : Word, l.instr.wellFormed = true → substituteOperand answers l.a = some a →
      substituteOperand answers l.b = some b →
        assembleLine answers l = some ⟨encode l.instr, a, b⟩) ∧
    (∀ v : Word, substituteOperand answers (.literal v) = some v) ∧
    (∀ (k : Nat) (r : Response) (v : Word), answers[k]? = some r → r.result = some v →
      substituteOperand answers (.resultOf (k + 1)) = some v) ∧
    (∀ (k : Nat) (r : Response), l.a = .resultOf (k + 1) ∨ l.b = .resultOf (k + 1) →
      answers[k]? = some r → r.result = none → assembleLine answers l = none) ∧
    (∀ k : Nat, l.a = .resultOf k ∨ l.b = .resultOf k → k = 0 ∨ answers.length < k →
      assembleLine answers l = none)

/-! ### The step, reset, and the environment -/

/-- 00_scope R12, 10_state R27, 30_encoding R81: a step performs the command the caller presents. -/
def Obligations.StepPerformsPresentedCommand : Prop :=
  ∀ (s : State) (c : Command) (rest : List Input) (i : Instr),
    s.inputs = .command c :: rest → decode c.cmd = .ok i →
      step s = exec i { s with port := c, inputs := rest }

/-- 60_exceptions R184. -/
def Obligations.IllegalCommandAnswered : Prop :=
  ∀ (s : State) (c : Command) (rest : List Input) (e : DecodeError),
    s.inputs = .command c :: rest → decode c.cmd = .error e →
      step s = .next { s with
        port := c, inputs := rest, responses := s.responses ++ [⟨2, 0, none⟩] }

/-- 60_exceptions R187 (1): a word with `rsv` not 0 is ILLEGAL_CMD whatever its opcode and `n`, also
where `n >= 64`. -/
def Obligations.IllegalWordBeforeBadIndex : Prop :=
  ∀ (s : State) (c : Command) (rest : List Input),
    s.inputs = .command c :: rest → c.cmd.toNat / 16 % 16 ≠ 0 →
      step s = .next { s with
        port := c, inputs := rest, responses := s.responses ++ [⟨2, 0, none⟩] }

/-- 70_reset R210: reset leaves the table as created, the trace empty and the strap sampled, without any
event. That the table store and the caller's further inputs stay is the model's choice (log 7). -/
def Obligations.ResetEmptiesTheBlock : Prop :=
  ∀ (s : State) (strap : Policy) (rest : List Input), s.inputs = .reset strap :: rest →
    ∃ t, step s = .next t ∧ t.table.isFull = false ∧ t.table.first = 0 ∧ t.table.last = 0 ∧
      (∀ i : Fin 8, (t.table.slot i).va = 0 ∧ (t.table.slot i).ref = false) ∧
      t.trace = [] ∧ t.policy = strap ∧ t.store = s.store ∧ t.inputs = rest

/-- 10_state R39: the values of every state element at reset, for every value of the strap. -/
def Obligations.ResetValues : Prop :=
  (∃ strap, State.reset = State.resetWith strap) ∧
  ∀ strap : Policy,
    let s := State.resetWith strap
    (∀ i : Fin 8, (s.table.slot i).va = 0 ∧ (s.table.slot i).ref = false) ∧
      s.table.first = 0 ∧ s.table.last = 0 ∧ s.table.isFull = false ∧ s.policy = strap ∧ s.trace = []

/-- 60_exceptions R180, R190, R194, 70_reset R226: nothing halts the block; every step answers a next state
and takes exactly the caller's next input; with no input left it changes nothing (log 2). -/
def Obligations.EveryStepCompletes : Prop :=
  ∀ s : State, ∃ t, step s = .next t ∧ t.inputs = s.inputs.tail ∧ (s.inputs = [] → t = s)

/-- 30_encoding R74: every command word is answered by exactly one response, with a result only where
the status is OK and the command gives a value. -/
def Obligations.OneResponsePerCommand : Prop :=
  ∀ (s : State) (c : Command) (rest : List Input), s.inputs = .command c :: rest →
    ∃ t r, step s = .next t ∧ t.responses = s.responses ++ [r] ∧
      match decode c.cmd with
      | .error _ => r = ⟨2, 0, none⟩
      | .ok (.setbit _) | .ok (.testbit _) | .ok (.clrbit _) =>
        (∃ v, r = ⟨0, 0, some v⟩) ∨ r = ⟨3, 0, none⟩
      | .ok .idx1 | .ok .idx2 | .ok .idx3 | .ok .idx4 => ∃ v, r = ⟨0, 0, some v⟩
      | .ok .pte2pa => (∃ v, r = ⟨0, 0, some v⟩) ∨ r = ⟨1, 0, none⟩
      | .ok .map | .ok .access => r.status = 0 ∧ r.info.toNat ≤ 3 ∧ r.result = none
      | .ok .walk => (∃ v, r = ⟨0, 0, some v⟩) ∨
          (r.status = 1 ∧ 1 ≤ r.info.toNat ∧ r.info.toNat ≤ 4 ∧ r.result = none)

/-- 60_exceptions R181, R184, R185, R188: a command that meets a reported condition has no effect on
state: only the response, and the requests of a WALK, are recorded. -/
def Obligations.ConditionsChangeNothing : Prop :=
  ∀ (s t : State) (c : Command) (rest : List Input) (r : Response),
    s.inputs = .command c :: rest → step s = .next t → t.responses = s.responses ++ [r] →
      r.status ≠ 0 → r.result = none ∧
        t = { s with port := c, inputs := rest, reads := t.reads, responses := t.responses }

/-- 60_exceptions R184, R185 (log 11): a run stays free of callers' errors exactly while the inputs are
sound; a reset starts a new run. -/
def Obligations.SoundInputsKeepRunSafe : Prop :=
  ∀ (s t : State) (i : Input) (rest : List Input),
    s.inputs = i :: rest → step s = .next t →
      t.safe = ((match i with | .reset _ => true | _ => s.safe) && i.sound)

/-- 10_state R26, R40: only a reset gives the policy a value, the strap's. -/
def Obligations.PolicyChangesOnlyAtReset : Prop :=
  ∀ s t : State, step s = .next t →
    match s.inputs with
    | .reset strap :: _ => t.policy = strap
    | _ => t.policy = s.policy

/-- 20_memory R59: no command, legal or not, writes memory: every byte of the table store reads as
before. -/
def Obligations.CommandsWriteNoMemory : Prop :=
  ∀ (s t : State) (c : Command) (rest : List Input),
    s.inputs = .command c :: rest → step s = .next t →
      t.store = s.store ∧ ∀ a : Nat, readByte t.store a = readByte s.store a

/-- 20_memory R68, 70_reset R222: what the caller writes into the table store is what the next read of
that entry answers; every other entry and all of the block stay as they were. -/
def Obligations.TableWriteChangesOneEntry : Prop :=
  ∀ (s : State) (frame : BitVec 40) (index : BitVec 9) (entry : Word) (rest : List Input),
    s.store.wf → s.inputs = .tableWrite frame index entry :: rest →
      ∃ t, step s = .next t ∧ t.store.wf ∧
        t = { s with store := t.store, inputs := rest } ∧
        ∀ (g : BitVec 40) (j : BitVec 9),
          tblRead t.store ⟨g ++ 0#12, j⟩ =
            if g = frame ∧ j = index then entry else tblRead s.store ⟨g ++ 0#12, j⟩

/-- 10_state R31: the translator, flag-decoder and walker commands write no state and read none: what
they answer depends on the operands (and for WALK the table store) alone. -/
def Obligations.OtherCommandsAreStateless : Prop :=
  ∀ i : Instr, i ≠ .map → i ≠ .access → ∀ s : State, ∃ rs r,
    exec i s = .next { s with reads := s.reads ++ rs, responses := s.responses ++ [r] } ∧
    (i ≠ .walk → rs = []) ∧
    ∀ u : State, u.port = s.port → (i = .walk → u.store = s.store) →
      exec i u = .next { u with reads := u.reads ++ rs, responses := u.responses ++ [r] }

/-- 30_encoding R79: where a format ignores `B`, nothing depends on it. -/
def Obligations.IgnoredOperandHasNoEffect : Prop :=
  ∀ (i : Instr), i ≠ .pte2pa → i ≠ .walk → ∀ (s : State) (b : Word), ∃ t,
    exec i s = .next t ∧
    exec i { s with port := { s.port with b := b } } =
      .next { t with port := { t.port with b := b } }

/-! ### The flag decoder -/

/-- 40_flag_decoder R91. -/
def Obligations.SetbitForcesOneBit : Prop :=
  (∀ n : Nat, n < 256 → decode (BitVec.ofNat 16 (n * 256 + 1)) = .ok (.setbit n)) ∧
  ∀ (n : Nat) (s : State),
    (n < 64 → ∃ v : Word,
      exec (.setbit n) s = .next { s with responses := s.responses ++ [⟨0, 0, some v⟩] } ∧
      ∀ m : Nat, m < 64 → v.getLsbD m = (m == n || s.port.a.getLsbD m)) ∧
    (64 ≤ n →
      exec (.setbit n) s = .next { s with responses := s.responses ++ [⟨3, 0, none⟩] })

/-- 40_flag_decoder R92; TESTBIT of PRESENT is exactly the test PTE2PA makes. -/
def Obligations.TestbitReportsOneBit : Prop :=
  (∀ n : Nat, n < 256 → decode (BitVec.ofNat 16 (n * 256 + 2)) = .ok (.testbit n)) ∧
  (∀ (n : Nat) (s : State),
    (n < 64 → exec (.testbit n) s = .next { s with
      responses := s.responses ++ [⟨0, 0, some ((s.port.a >>> n) &&& 1)⟩] } ∧
      (s.port.a >>> n) &&& 1 = if s.port.a.getLsbD n then 1 else 0) ∧
    (64 ≤ n →
      exec (.testbit n) s = .next { s with responses := s.responses ++ [⟨3, 0, none⟩] })) ∧
  ∀ (pte va b : Word) (s : State), answerValue (.testbit 0) pte b s = some 1 ↔
    ∃ pa, answer .pte2pa pte va s = some ⟨0, 0, some pa⟩

/-- 40_flag_decoder R94. -/
def Obligations.ClrbitForcesOneBitToZero : Prop :=
  (∀ n : Nat, n < 256 → decode (BitVec.ofNat 16 (n * 256 + 3)) = .ok (.clrbit n)) ∧
  ∀ (n : Nat) (s : State),
    (n < 64 → ∃ v : Word,
      exec (.clrbit n) s = .next { s with responses := s.responses ++ [⟨0, 0, some v⟩] } ∧
      ∀ m : Nat, m < 64 → v.getLsbD m = (m != n && s.port.a.getLsbD m)) ∧
    (64 ≤ n →
      exec (.clrbit n) s = .next { s with responses := s.responses ++ [⟨3, 0, none⟩] })

/-- 40_flag_decoder R93, 60_exceptions R185: a bit command whose index is above 63 is answered
BAD_BITPOS, with nothing else changed. -/
def Obligations.BadBitIndexAnswered : Prop :=
  ∀ (s : State) (c : Command) (rest : List Input),
    s.inputs = .command c :: rest →
    1 ≤ c.cmd.toNat % 256 → c.cmd.toNat % 256 ≤ 3 → 64 ≤ c.cmd.toNat / 256 →
      step s = .next { s with
        port := c, inputs := rest, responses := s.responses ++ [⟨3, 0, none⟩] }

/-- 40_flag_decoder R95: the round trip of the three bit commands, and the laws that follow. -/
def Obligations.BitCommandsRoundTrip : Prop :=
  ∀ (s : State) (v b : Word) (n m : Nat), n < 64 → m < 64 → ∃ sv cv,
    answerValue (.setbit n) v b s = some sv ∧ answerValue (.clrbit n) v b s = some cv ∧
    answerValue (.testbit n) sv b s = some 1 ∧ answerValue (.testbit n) cv b s = some 0 ∧
    (m ≠ n → answerValue (.testbit m) sv b s = answerValue (.testbit m) v b s ∧
      answerValue (.testbit m) cv b s = answerValue (.testbit m) v b s) ∧
    answerValue (.setbit n) sv b s = some sv ∧ answerValue (.clrbit n) cv b s = some cv ∧
    answerValue (.clrbit n) sv b s = some cv ∧ answerValue (.setbit n) cv b s = some sv ∧
    (m ≠ n → ∀ sm cm, answerValue (.setbit m) v b s = some sm →
      answerValue (.clrbit m) v b s = some cm →
      answerValue (.setbit m) sv b s = answerValue (.setbit n) sm b s ∧
      answerValue (.clrbit m) sv b s = answerValue (.setbit n) cm b s ∧
      answerValue (.clrbit m) cv b s = answerValue (.clrbit n) cm b s)

/-! ### The address translator -/

/-- 41_address_translator R101 to R104. -/
def Obligations.IndexCommandsExtractNineBits : Prop :=
  (decode 0x0004 = .ok .idx1 ∧ decode 0x0005 = .ok .idx2 ∧ decode 0x0006 = .ok .idx3 ∧
    decode 0x0007 = .ok .idx4) ∧
  ∀ s : State,
    exec .idx1 s = .next { s with responses :=
      s.responses ++ [⟨0, 0, some (BitVec.ofNat 64 (s.port.a.toNat / 2 ^ 39 % 512))⟩] } ∧
    exec .idx2 s = .next { s with responses :=
      s.responses ++ [⟨0, 0, some (BitVec.ofNat 64 (s.port.a.toNat / 2 ^ 30 % 512))⟩] } ∧
    exec .idx3 s = .next { s with responses :=
      s.responses ++ [⟨0, 0, some (BitVec.ofNat 64 (s.port.a.toNat / 2 ^ 21 % 512))⟩] } ∧
    exec .idx4 s = .next { s with responses :=
      s.responses ++ [⟨0, 0, some (BitVec.ofNat 64 (s.port.a.toNat / 2 ^ 12 % 512))⟩] }

/-- 41_address_translator R106: the indices and the offset partition the low 48 bits, each index takes
every value independently of the others, and equal parts mean equal low 48 bits. -/
def Obligations.IndicesPartitionTheAddress : Prop :=
  ∀ s : State,
    (∀ va b : Word, ∃ i1 i2 i3 i4,
      answerValue .idx1 va b s = some i1 ∧ answerValue .idx2 va b s = some i2 ∧
      answerValue .idx3 va b s = some i3 ∧ answerValue .idx4 va b s = some i4 ∧
      i1.toNat < 512 ∧ i2.toNat < 512 ∧ i3.toNat < 512 ∧ i4.toNat < 512 ∧
      (va &&& 0xFFF#64) ||| (i4 <<< 12) ||| (i3 <<< 21) ||| (i2 <<< 30) ||| (i1 <<< 39) =
        va &&& 0xFFFFFFFFFFFF#64) ∧
    (∀ (j1 j2 j3 j4 : BitVec 9) (o : BitVec 12), ∃ va : Word, va.extractLsb' 0 12 = o ∧
      ∀ b, answerValue .idx1 va b s = some (j1.setWidth 64) ∧
        answerValue .idx2 va b s = some (j2.setWidth 64) ∧
        answerValue .idx3 va b s = some (j3.setWidth 64) ∧
        answerValue .idx4 va b s = some (j4.setWidth 64)) ∧
    (∀ va wa b : Word, va &&& 0xFFF#64 = wa &&& 0xFFF#64 →
      answerValue .idx1 va b s = answerValue .idx1 wa b s →
      answerValue .idx2 va b s = answerValue .idx2 wa b s →
      answerValue .idx3 va b s = answerValue .idx3 wa b s →
      answerValue .idx4 va b s = answerValue .idx4 wa b s →
      va &&& 0xFFFFFFFFFFFF#64 = wa &&& 0xFFFFFFFFFFFF#64)

/-- 41_address_translator R107, R108: the physical address when PRESENT is set, PAGE_FAULT and no result
when it is clear. -/
def Obligations.Pte2paRebuildsAddressOrFaults : Prop :=
  decode 0x0008 = .ok .pte2pa ∧
  ∀ s : State,
    (s.port.a.getLsbD 0 = true → ∃ pa : Word,
      exec .pte2pa s = .next { s with responses := s.responses ++ [⟨0, 0, some pa⟩] } ∧
      pa.toNat = s.port.a.toNat / 4096 % 2 ^ 40 * 4096 + s.port.b.toNat % 4096) ∧
    (s.port.a.getLsbD 0 = false →
      exec .pte2pa s = .next { s with responses := s.responses ++ [⟨1, 0, none⟩] })

/-- 20_memory R54, R55, 41_address_translator R109, 45_walker R171: the bits the translator and the
walker ignore. The answers are the same for entries, root handles and table stores whose every entry
agrees on PRESENT and on bits 51:12, and for addresses that agree on bits 47:0 (PTE2PA: 11:0). -/
def Obligations.IgnoredBitsHaveNoEffect : Prop :=
  ∀ s u : State,
    (s.port.a.getLsbD 0 = u.port.a.getLsbD 0 →
      s.port.a.extractLsb' 12 40 = u.port.a.extractLsb' 12 40 →
      s.port.b.extractLsb' 0 12 = u.port.b.extractLsb' 0 12 →
      answer .pte2pa s.port.a s.port.b s = answer .pte2pa u.port.a u.port.b u) ∧
    (s.port.a.extractLsb' 0 48 = u.port.a.extractLsb' 0 48 →
      answer .idx1 s.port.a s.port.b s = answer .idx1 u.port.a u.port.b u ∧
      answer .idx2 s.port.a s.port.b s = answer .idx2 u.port.a u.port.b u ∧
      answer .idx3 s.port.a s.port.b s = answer .idx3 u.port.a u.port.b u ∧
      answer .idx4 s.port.a s.port.b s = answer .idx4 u.port.a u.port.b u) ∧
    (s.port.a.extractLsb' 0 48 = u.port.a.extractLsb' 0 48 →
      s.port.b.extractLsb' 12 40 = u.port.b.extractLsb' 12 40 →
      (∀ (g : BitVec 40) (j : BitVec 9),
        (tblRead s.store ⟨g ++ 0#12, j⟩).getLsbD 0 = (tblRead u.store ⟨g ++ 0#12, j⟩).getLsbD 0 ∧
        (tblRead s.store ⟨g ++ 0#12, j⟩).extractLsb' 12 40 =
          (tblRead u.store ⟨g ++ 0#12, j⟩).extractLsb' 12 40) →
      answer .walk s.port.a s.port.b s = answer .walk u.port.a u.port.b u)

/-! ### The walker -/

/-- 45_walker R166, R167 (the spec's decision D11, log 15): four dependent reads in level order, PAGE_FAULT with
the level at the first entry whose PRESENT is clear and exactly that many reads, otherwise the
physical address out of the level-4 entry. -/
def Obligations.WalkReadsFourLevels : Prop :=
  decode 0x000B = .ok .walk ∧
  ∀ s : State,
    let va := s.port.a
    let base : Word → BitVec 52 := fun h => BitVec.ofNat 52 (h.toNat / 4096 % 2 ^ 40 * 4096)
    let r1 : TblReq := ⟨base s.port.b, BitVec.ofNat 9 (va.toNat / 2 ^ 39 % 512)⟩
    let e1 := tblRead s.store r1
    let r2 : TblReq := ⟨base e1, BitVec.ofNat 9 (va.toNat / 2 ^ 30 % 512)⟩
    let e2 := tblRead s.store r2
    let r3 : TblReq := ⟨base e2, BitVec.ofNat 9 (va.toNat / 2 ^ 21 % 512)⟩
    let e3 := tblRead s.store r3
    let r4 : TblReq := ⟨base e3, BitVec.ofNat 9 (va.toNat / 2 ^ 12 % 512)⟩
    let e4 := tblRead s.store r4
    if e1.getLsbD 0 = false then
      exec .walk s = .next { s with
        reads := s.reads ++ [r1], responses := s.responses ++ [⟨1, 1, none⟩] }
    else if e2.getLsbD 0 = false then
      exec .walk s = .next { s with
        reads := s.reads ++ [r1, r2], responses := s.responses ++ [⟨1, 2, none⟩] }
    else if e3.getLsbD 0 = false then
      exec .walk s = .next { s with
        reads := s.reads ++ [r1, r2, r3], responses := s.responses ++ [⟨1, 3, none⟩] }
    else if e4.getLsbD 0 = false then
      exec .walk s = .next { s with
        reads := s.reads ++ [r1, r2, r3, r4], responses := s.responses ++ [⟨1, 4, none⟩] }
    else ∃ pa : Word,
      exec .walk s = .next { s with
        reads := s.reads ++ [r1, r2, r3, r4], responses := s.responses ++ [⟨0, 0, some pa⟩] } ∧
      pa.toNat = e4.toNat / 4096 % 2 ^ 40 * 4096 + va.toNat % 4096

/-- 45_walker R170: for any table store, WALK answers what the caller's own sequence of primitive
commands answers. -/
def Obligations.WalkEqualsPrimitives : Prop :=
  ∀ (s : State) (va root : Word), answer .walk va root s = callerWalk s va walkOrder root

/-- 45_walker R169, 60_exceptions R189: after a level-4 fault the same WALK succeeds once the caller has
made the entry present, whether or not MAP was called in between. -/
def Obligations.RetrySucceedsOnceEntryIsPresent : Prop :=
  ∀ (s : State) (va root pte : Word) (frame : BitVec 40) (index : BitVec 9) (mid : List Input),
    s.store.wf → answer .walk va root s = some ⟨1, 4, none⟩ →
    (walkLevels s.store va walkOrder root).reads.getLast? = some ⟨frame ++ 0#12, index⟩ →
    pte.getLsbD 0 = true → (mid = [] ∨ mid = [.command ⟨0x0009, va, 0⟩]) →
    s.inputs = [.command ⟨0x000B, va, root⟩] ++ mid ++
      [.tableWrite frame index pte, .command ⟨0x000B, va, root⟩] →
    ∃ t pa, Host.Core.run Sys2Proof.core (3 + mid.length) s = .next t ∧
      t.responses.getLast? = some ⟨0, 0, some pa⟩ ∧
      pa.toNat = pte.toNat / 4096 % 2 ^ 40 * 4096 + va.toNat % 4096

/-! ### MAP and ACCESS, case by case -/

/-- 42_frame_table R124: the sentinel is ignored, under both policies. -/
def Obligations.SentinelIsIgnored : Prop :=
  ∀ (s : State) (i : Instr), i = .map ∨ i = .access → s.port.a = 0 →
    exec i s = .next { s with responses := s.responses ++ [⟨0, 0, none⟩] }

/-- 43_fifo R140 (2), R141: under FIFO a hit changes nothing. -/
def Obligations.FifoHitChangesNothing : Prop :=
  ∀ (s : State) (i : Instr) (k : Fin 8), i = .map ∨ i = .access → s.policy = .fifo →
    s.port.a ≠ 0 → (s.table.slot k).va = s.port.a →
      exec i s = .next { s with responses := s.responses ++ [⟨0, 1, none⟩] }

/-- 44_clock R152: under CLOCK a hit sets the slot's `ref` and nothing else (the lowest slot, where a
state that no run reaches holds the address twice, 42_frame_table R121). -/
def Obligations.ClockHitSetsOneReferencedBit : Prop :=
  ∀ (s : State) (i : Instr) (k : Fin 8), i = .map ∨ i = .access → s.policy = .clock →
    s.port.a ≠ 0 → (s.table.slot k).va = s.port.a →
    (∀ j : Fin 8, j < k → (s.table.slot j).va ≠ s.port.a) →
      ∃ u : FrameTable,
        exec i s = .next { s with table := u, responses := s.responses ++ [⟨0, 1, none⟩] } ∧
        u.first = s.table.first ∧ u.last = s.table.last ∧ u.isFull = s.table.isFull ∧
        ∀ j : Fin 8, u.slot j = if j = k then ⟨s.port.a, true⟩ else s.table.slot j

/-- 42_frame_table R128: a miss with free capacity. -/
def Obligations.InsertionFillsNextSlot : Prop :=
  ∀ (s : State) (i : Instr), i = .map ∨ i = .access → s.port.a ≠ 0 →
    (∀ j : Fin 8, (s.table.slot j).va ≠ s.port.a) → s.table.isFull = false →
      ∃ u : FrameTable,
        exec i s = .next { s with
          table := u, trace := s.trace ++ [.load s.port.a],
          responses := s.responses ++ [⟨0, 2, none⟩] } ∧
        u.first = s.table.first ∧ u.last.val = (s.table.last.val + 1) % 8 ∧
        (u.isFull = true ↔ u.last = s.table.first) ∧
        ∀ j : Fin 8, u.slot j =
          if j = s.table.last then
            ⟨s.port.a, s.policy == .clock || (s.table.slot j).ref⟩
          else s.table.slot j

/-- 43_fifo R140 (4), 42_frame_table R129: under FIFO a miss on a full table replaces the slot at the
hand, whatever has been accessed. -/
def Obligations.FifoReplacesAtHand : Prop :=
  ∀ (s : State) (i : Instr), i = .map ∨ i = .access → s.policy = .fifo → s.port.a ≠ 0 →
    (∀ j : Fin 8, (s.table.slot j).va ≠ s.port.a) → s.table.isFull = true →
      ∃ u : FrameTable,
        exec i s = .next { s with
          table := u,
          trace := s.trace ++ [.evict (s.table.slot s.table.first).va, .load s.port.a],
          responses := s.responses ++ [⟨0, 3, none⟩] } ∧
        u.first.val = (s.table.first.val + 1) % 8 ∧ u.last = u.first ∧ u.isFull = true ∧
        ∀ j : Fin 8, u.slot j =
          if j = s.table.first then ⟨s.port.a, (s.table.slot j).ref⟩ else s.table.slot j

/-- 44_clock R153, R154 (the bound 8, and what holds when it is met, are the spec's own derivation there),
42_frame_table R129: under CLOCK a miss on a full table passes over the `c`
referenced slots from the hand on, clearing them, and replaces the next one; `c` is at most 8. -/
def Obligations.ClockReplacesFirstUnreferenced : Prop :=
  ∀ (s : State) (i : Instr), i = .map ∨ i = .access → s.policy = .clock → s.port.a ≠ 0 →
    (∀ j : Fin 8, (s.table.slot j).va ≠ s.port.a) → s.table.isFull = true →
      ∃ (u : FrameTable) (c : Nat), c ≤ 8 ∧
        (∀ k < c, (s.table.slot (ringSlot s.table k)).ref = true) ∧
        (c < 8 → (s.table.slot (ringSlot s.table c)).ref = false) ∧
        exec i s = .next { s with
          table := u,
          trace := s.trace ++ [.evict (s.table.slot (ringSlot s.table c)).va, .load s.port.a],
          responses := s.responses ++ [⟨0, 3, none⟩] } ∧
        u.first = ringSlot s.table (c + 1) ∧ u.last = u.first ∧ u.isFull = true ∧
        ∀ j : Fin 8, u.slot j =
          if j = ringSlot s.table c then ⟨s.port.a, true⟩
          else ⟨(s.table.slot j).va,
            (s.table.slot j).ref && !decide (∃ k < c, j = ringSlot s.table k)⟩

/-- 44_clock R156 (a), (b): with all eight slots referenced, one full sweep clears every bit and the slot
at the original hand is evicted, touched or not. -/
def Obligations.FullSweepEvictsOriginalHand : Prop :=
  ∀ (s : State) (i : Instr), i = .map ∨ i = .access → s.policy = .clock → s.port.a ≠ 0 →
    (∀ j : Fin 8, (s.table.slot j).va ≠ s.port.a) → s.table.isFull = true →
    (∀ j : Fin 8, (s.table.slot j).ref = true) →
      ∃ u : FrameTable,
        exec i s = .next { s with
          table := u,
          trace := s.trace ++ [.evict (s.table.slot s.table.first).va, .load s.port.a],
          responses := s.responses ++ [⟨0, 3, none⟩] } ∧
        u.first.val = (s.table.first.val + 1) % 8 ∧ u.last = u.first ∧
        ∀ j : Fin 8, u.slot j =
          if j = s.table.first then ⟨s.port.a, true⟩ else ⟨(s.table.slot j).va, false⟩

/-- 42_frame_table R132: under each policy MAP and ACCESS are the same function of state and operand. -/
def Obligations.MapAndAccessCoincide : Prop :=
  ∀ s : State, exec .map s = exec .access s

/-- 42_frame_table R130: the outcome code is a function of the state before and the operand, the same
under both policies. -/
def Obligations.OutcomeCodeSaysTheCase : Prop :=
  ∀ (s : State) (i : Instr), i = .map ∨ i = .access → ∃ t code,
    exec i s = .next t ∧ t.responses = s.responses ++ [⟨0, code, none⟩] ∧
    (s.port.a = 0 → code = 0) ∧
    (s.port.a ≠ 0 → (∃ j : Fin 8, (s.table.slot j).va = s.port.a) → code = 1) ∧
    (s.port.a ≠ 0 → (∀ j : Fin 8, (s.table.slot j).va ≠ s.port.a) → s.table.isFull = false →
      code = 2) ∧
    (s.port.a ≠ 0 → (∀ j : Fin 8, (s.table.slot j).va ≠ s.port.a) → s.table.isFull = true →
      code = 3)

/-- 42_frame_table R126: the events of one command: LOAD for an insertion, EVICT then LOAD for a
replacement, nothing for a hit, the sentinel, an illegal word and every command but MAP and ACCESS. -/
def Obligations.EventsOfOneCommand : Prop :=
  ∀ (s : State) (c : Command) (rest : List Input), s.inputs = .command c :: rest →
    ∃ t r evs, step s = .next t ∧ t.responses = s.responses ++ [r] ∧ t.trace = s.trace ++ evs ∧
      match decode c.cmd with
      | .ok .map | .ok .access =>
        (r.info.toNat < 2 ∧ evs = []) ∨ (r.info = 2 ∧ evs = [.load c.a]) ∨
        (r.info = 3 ∧ ∃ j : Fin 8, evs = [.evict (s.table.slot j).va, .load c.a] ∧
          (t.table.slot j).va = c.a)
      | _ => evs = []

/-- 20_memory R55, R56, 70_reset R224: keys are whole addresses. Of two different addresses, however many
of their bits agree, mapping the one does not make the other resident. -/
def Obligations.KeysAreWholeAddresses : Prop :=
  ∀ (s : State) (x y : Word), x ≠ 0 → y ≠ 0 → x ≠ y →
    (∀ j : Fin 8, (s.table.slot j).va ≠ y) → ∃ t r,
      exec .map { s with port := ⟨0x0009, x, 0⟩ } = .next t ∧
      answer .map y 0 t = some r ∧ r.status = 0 ∧ (r.info = 2 ∨ r.info = 3)

/-! ### Invariants -/

/-- 10_state R33, R34, R35: every step keeps the frame table's invariants: no duplicates, the filling
table, the full ring. -/
def Obligations.FrameTableInvariantKept : Prop :=
  ∀ s t : State, s.table.Inv → step s = .next t → t.table.Inv

/-- 10_state R33, R34, R35, R39: the invariants hold at reset. -/
def Obligations.FrameTableInvariantAtReset : Prop :=
  (∀ strap, (State.resetWith strap).table.Inv) ∧ State.reset.table.Inv

/-- 42_frame_table R125: after MAP or ACCESS of a non-zero address it is resident in exactly one slot, at
most eight are resident, every address that was resident still is, except the victim when there was
one, whose slot now holds it, and the invariants hold. -/
def Obligations.MapLeavesExactlyOneCopy : Prop :=
  ∀ (s : State) (i : Instr), i = .map ∨ i = .access → s.table.Inv → s.port.a ≠ 0 →
    ∃ t evs, exec i s = .next t ∧ t.trace = s.trace ++ evs ∧
      (∃ j : Fin 8, (t.table.slot j).va = s.port.a ∧
        ∀ k : Fin 8, (t.table.slot k).va = s.port.a → k = j) ∧
      t.table.size ≤ 8 ∧
      (∀ x, s.table.resident x → ¬ x ∈ evictsOf evs → t.table.resident x) ∧
      (∀ x, x ∈ evictsOf evs → s.table.resident x ∧ ¬ t.table.resident x ∧
        ∀ j : Fin 8, (s.table.slot j).va = x → (t.table.slot j).va = s.port.a) ∧
      t.table.Inv ∧ (s.table.isFull = true → t.table.isFull = true)

/-- 10_state R36: no input but a reset clears `is_full`, empties a slot or lowers the occupancy. -/
def Obligations.FullTableStaysFull : Prop :=
  ∀ s t : State, step s = .next t → (∀ strap rest, s.inputs ≠ .reset strap :: rest) →
    (s.table.isFull = true → t.table.isFull = true) ∧ s.table.size ≤ t.table.size ∧
      ∀ j : Fin 8, (s.table.slot j).va ≠ 0 → (t.table.slot j).va ≠ 0

/-- 10_state R25: the occupancy follows from the cursors. -/
def Obligations.OccupancyFollowsCursors : Prop :=
  ∀ t : FrameTable, t.Inv →
    (t.isFull = false → t.size = t.last.val) ∧ (t.isFull = true → t.size = 8)

/-- 10_state R37, 43_fifo R143: under FIFO the `ref` bits are neither read nor written, so they stay 0:
a command leaves each bit as it was, answers, emits and moves the same whatever the bits are, and
every step keeps them 0. -/
def Obligations.FifoLeavesReferencedBitsAlone : Prop :=
  (∀ (s : State) (u : FrameTable) (i : Instr), i = .map ∨ i = .access → s.policy = .fifo →
    (∀ j : Fin 8, (u.slot j).va = (s.table.slot j).va) → u.first = s.table.first →
    u.last = s.table.last → u.isFull = s.table.isFull →
      ∃ t w, exec i s = .next t ∧ exec i { s with table := u } = .next w ∧
        (∀ j : Fin 8, (t.table.slot j).ref = (s.table.slot j).ref) ∧
        (∀ j : Fin 8, (w.table.slot j).va = (t.table.slot j).va) ∧
        w.table.first = t.table.first ∧ w.table.last = t.table.last ∧
        w.table.isFull = t.table.isFull ∧ w.trace = t.trace ∧ w.responses = t.responses) ∧
  (∀ s t : State, s.fifoRefsClear → step s = .next t → t.fifoRefsClear)

/-- 10_state R38, 44_clock R155: under CLOCK a command that loaded an address leaves its slot
referenced. -/
def Obligations.LoadedPageCountsAsReferenced : Prop :=
  ∀ (s : State) (i : Instr), i = .map ∨ i = .access → s.policy = .clock → s.port.a ≠ 0 →
    (∀ j : Fin 8, (s.table.slot j).va ≠ s.port.a) →
      ∃ t, exec i s = .next t ∧ (∃ j : Fin 8, (t.table.slot j).va = s.port.a) ∧
        ∀ j : Fin 8, (t.table.slot j).va = s.port.a → (t.table.slot j).ref = true

/-- 44_clock R155: until the first eviction the hand stays at slot 0, the pages loaded are the residents in
slot order, and under CLOCK every resident page counts as referenced; every step keeps this. -/
def Obligations.BeforeFirstEvictionKept : Prop :=
  ∀ s t : State, s.beforeFirstEviction → step s = .next t → t.beforeFirstEviction

/-- 44_clock R155, R156: so the first eviction after filling sweeps the whole ring and evicts slot 0, the
first page loaded (the address of the first LOAD event), as FIFO would. -/
def Obligations.FirstClockEvictionTakesFirstLoaded : Prop :=
  ∀ (s : State) (i : Instr), i = .map ∨ i = .access → s.table.Inv → s.beforeFirstEviction →
    s.policy = .clock → evictsOf s.trace = [] → s.table.isFull = true → s.port.a ≠ 0 →
    (∀ j : Fin 8, (s.table.slot j).va ≠ s.port.a) →
      ∃ t, exec i s = .next t ∧
        t.trace = s.trace ++ [.evict (s.table.slot 0).va, .load s.port.a] ∧
        (loadsOf s.trace).head? = some (s.table.slot 0).va ∧
        t.table.first = 1 ∧ t.table.slot 0 = ⟨s.port.a, true⟩ ∧
        ∀ j : Fin 8, j ≠ 0 → (t.table.slot j).ref = false

/-- 43_fifo R142: FIFO's order is kept by every step: what was loaded is what was evicted followed by the
residents, oldest first. -/
def Obligations.FifoOrderKept : Prop :=
  ∀ s t : State, s.table.Inv → s.fifoOrder → step s = .next t → t.fifoOrder

/-- 42_frame_table R126: the LOAD events are as many as the misses and the EVICT events as many as the
misses that found the table full; every step keeps this. The misses are counted in the response history,
which is the model's (log 5). -/
def Obligations.EventCountsKept : Prop :=
  ∀ s t : State, s.eventsCounted → step s = .next t → t.eventsCounted

/-- The table store keeps its canonical form under every step, a table write of the caller included
(the model's form, log 8 and log 9). -/
def Obligations.StoreStaysCanonical : Prop :=
  ∀ s t : State, s.store.wf → step s = .next t → t.store.wf

/-- The invariants together, from reset, for every strap, every table store in canonical form, every sequence
of inputs and any number of steps: no run stops, and all of them hold at its end (10_state R33 to R37,
42_frame_table R126, 43_fifo R142, 44_clock R155, 30_encoding R74 to R76). The response history, the
store's layout and its canonical form, and the list of inputs are the model's (log 5, log 8, log 9,
log 2). -/
def Obligations.RunsKeepEveryInvariant : Prop :=
  ∀ (strap : Policy) (store : Memory) (inputs : List Input) (k : Nat), store.wf →
    ∃ t, Host.Core.run Sys2Proof.core k
        { State.resetWith strap with store := store, inputs := inputs } = .next t ∧ t.Inv

/-- 43_fifo R142: in every run from reset with FIFO strapped and no further reset, the k-th EVICT names
the address of the k-th LOAD: eviction order is insertion order. -/
def Obligations.FifoEvictsInLoadOrder : Prop :=
  ∀ (store : Memory) (inputs : List Input) (k : Nat) (t : State), store.wf →
    (∀ strap, .reset strap ∉ inputs) →
    Host.Core.run Sys2Proof.core k
        { State.resetWith .fifo with store := store, inputs := inputs } = .next t →
      ∀ (n : Nat) (va : Word), (evictsOf t.trace)[n]? = some va → (loadsOf t.trace)[n]? = some va

/-- The invariants together, the legal form of every response (30_encoding R74 to R76) among them: every
step keeps them. The response history, the store's layout and its canonical form are the model's (log 5,
log 8, log 9). -/
def Obligations.EveryInvariantKept : Prop :=
  ∀ s t : State, s.Inv → step s = .next t → t.Inv

/-- The invariants together hold at reset, for every strap, every canonical table store and every sequence
of inputs (the model's forms: log 1, log 2, log 5, log 8, log 9). -/
def Obligations.EveryInvariantAtReset : Prop :=
  State.reset.Inv ∧ ∀ (strap : Policy) (store : Memory) (inputs : List Input), store.wf →
    { State.resetWith strap with store := store, inputs := inputs }.Inv
end

