-- ==== Sys2Proof/Laws/State.lean ====
section
/-! SUPPORT. One lemma per field and update, so that no later proof unfolds a record update. -/

namespace Sys2Proof.Machine

/-! ### `respond` and what is made of it -/

@[simp] theorem respond_table (st : Status) (n : BitVec 3) (v : Option Word) (s : State) :
    (respond st n v s).table = s.table := rfl
@[simp] theorem respond_policy (st : Status) (n : BitVec 3) (v : Option Word) (s : State) :
    (respond st n v s).policy = s.policy := rfl
@[simp] theorem respond_trace (st : Status) (n : BitVec 3) (v : Option Word) (s : State) :
    (respond st n v s).trace = s.trace := rfl
@[simp] theorem respond_port (st : Status) (n : BitVec 3) (v : Option Word) (s : State) :
    (respond st n v s).port = s.port := rfl
@[simp] theorem respond_responses (st : Status) (n : BitVec 3) (v : Option Word) (s : State) :
    (respond st n v s).responses = s.responses ++ [⟨statusCode st, n, v⟩] := rfl
@[simp] theorem respond_reads (st : Status) (n : BitVec 3) (v : Option Word) (s : State) :
    (respond st n v s).reads = s.reads := rfl
@[simp] theorem respond_store (st : Status) (n : BitVec 3) (v : Option Word) (s : State) :
    (respond st n v s).store = s.store := rfl
@[simp] theorem respond_inputs (st : Status) (n : BitVec 3) (v : Option Word) (s : State) :
    (respond st n v s).inputs = s.inputs := rfl

theorem respondValue_eq (v : Word) (s : State) : respondValue v s = respond .ok 0 (some v) s := rfl
theorem raisePageFault_eq (n : BitVec 3) (s : State) :
    raisePageFault n s = respond .pageFault n none s := rfl
theorem raiseBadBitIndex_eq (s : State) : raiseBadBitIndex s = respond .badBitpos 0 none s := rfl
theorem raiseIllegalCommand_eq (s : State) :
    raiseIllegalCommand s = respond .illegalCmd 0 none s := rfl

/-! ### `recordReads` -/

@[simp] theorem recordReads_table (r : List TblReq) (s : State) :
    (recordReads r s).table = s.table := rfl
@[simp] theorem recordReads_policy (r : List TblReq) (s : State) :
    (recordReads r s).policy = s.policy := rfl
@[simp] theorem recordReads_trace (r : List TblReq) (s : State) :
    (recordReads r s).trace = s.trace := rfl
@[simp] theorem recordReads_port (r : List TblReq) (s : State) :
    (recordReads r s).port = s.port := rfl
@[simp] theorem recordReads_responses (r : List TblReq) (s : State) :
    (recordReads r s).responses = s.responses := rfl
@[simp] theorem recordReads_reads (r : List TblReq) (s : State) :
    (recordReads r s).reads = s.reads ++ r := rfl
@[simp] theorem recordReads_store (r : List TblReq) (s : State) :
    (recordReads r s).store = s.store := rfl
@[simp] theorem recordReads_inputs (r : List TblReq) (s : State) :
    (recordReads r s).inputs = s.inputs := rfl

/-! ### `commitAnswer` -/

@[simp] theorem commitAnswer_table (m : MapAnswer) (s : State) :
    (commitAnswer m s).table = m.table := rfl
@[simp] theorem commitAnswer_policy (m : MapAnswer) (s : State) :
    (commitAnswer m s).policy = s.policy := rfl
@[simp] theorem commitAnswer_trace (m : MapAnswer) (s : State) :
    (commitAnswer m s).trace = s.trace ++ m.events := rfl
@[simp] theorem commitAnswer_port (m : MapAnswer) (s : State) :
    (commitAnswer m s).port = s.port := rfl
@[simp] theorem commitAnswer_responses (m : MapAnswer) (s : State) :
    (commitAnswer m s).responses = s.responses ++ [⟨statusCode .ok, outcomeCode m.outcome, none⟩] :=
  rfl
@[simp] theorem commitAnswer_reads (m : MapAnswer) (s : State) :
    (commitAnswer m s).reads = s.reads := rfl
@[simp] theorem commitAnswer_store (m : MapAnswer) (s : State) :
    (commitAnswer m s).store = s.store := rfl
@[simp] theorem commitAnswer_inputs (m : MapAnswer) (s : State) :
    (commitAnswer m s).inputs = s.inputs := rfl

/-! ### What happens between commands -/

@[simp] theorem present_table (c : Command) (l : List Input) (s : State) :
    (present c l s).table = s.table := rfl
@[simp] theorem present_policy (c : Command) (l : List Input) (s : State) :
    (present c l s).policy = s.policy := rfl
@[simp] theorem present_trace (c : Command) (l : List Input) (s : State) :
    (present c l s).trace = s.trace := rfl
@[simp] theorem present_port (c : Command) (l : List Input) (s : State) :
    (present c l s).port = c := rfl
@[simp] theorem present_responses (c : Command) (l : List Input) (s : State) :
    (present c l s).responses = s.responses := rfl
@[simp] theorem present_reads (c : Command) (l : List Input) (s : State) :
    (present c l s).reads = s.reads := rfl
@[simp] theorem present_store (c : Command) (l : List Input) (s : State) :
    (present c l s).store = s.store := rfl
@[simp] theorem present_inputs (c : Command) (l : List Input) (s : State) :
    (present c l s).inputs = l := rfl

@[simp] theorem applyReset_table (p : Policy) (l : List Input) (s : State) :
    (applyReset p l s).table = FrameTable.empty := rfl
@[simp] theorem applyReset_policy (p : Policy) (l : List Input) (s : State) :
    (applyReset p l s).policy = p := rfl
@[simp] theorem applyReset_trace (p : Policy) (l : List Input) (s : State) :
    (applyReset p l s).trace = [] := rfl
@[simp] theorem applyReset_port (p : Policy) (l : List Input) (s : State) :
    (applyReset p l s).port = Command.undriven := rfl
@[simp] theorem applyReset_responses (p : Policy) (l : List Input) (s : State) :
    (applyReset p l s).responses = [] := rfl
@[simp] theorem applyReset_reads (p : Policy) (l : List Input) (s : State) :
    (applyReset p l s).reads = [] := rfl
@[simp] theorem applyReset_store (p : Policy) (l : List Input) (s : State) :
    (applyReset p l s).store = s.store := rfl
@[simp] theorem applyReset_inputs (p : Policy) (l : List Input) (s : State) :
    (applyReset p l s).inputs = l := rfl

@[simp] theorem applyTableWrite_table (f : BitVec 40) (i : BitVec 9) (e : Word) (l : List Input)
    (s : State) : (applyTableWrite f i e l s).table = s.table := rfl
@[simp] theorem applyTableWrite_policy (f : BitVec 40) (i : BitVec 9) (e : Word) (l : List Input)
    (s : State) : (applyTableWrite f i e l s).policy = s.policy := rfl
@[simp] theorem applyTableWrite_trace (f : BitVec 40) (i : BitVec 9) (e : Word) (l : List Input)
    (s : State) : (applyTableWrite f i e l s).trace = s.trace := rfl
@[simp] theorem applyTableWrite_port (f : BitVec 40) (i : BitVec 9) (e : Word) (l : List Input)
    (s : State) : (applyTableWrite f i e l s).port = s.port := rfl
@[simp] theorem applyTableWrite_responses (f : BitVec 40) (i : BitVec 9) (e : Word) (l : List Input)
    (s : State) : (applyTableWrite f i e l s).responses = s.responses := rfl
@[simp] theorem applyTableWrite_reads (f : BitVec 40) (i : BitVec 9) (e : Word) (l : List Input)
    (s : State) : (applyTableWrite f i e l s).reads = s.reads := rfl
@[simp] theorem applyTableWrite_inputs (f : BitVec 40) (i : BitVec 9) (e : Word) (l : List Input)
    (s : State) : (applyTableWrite f i e l s).inputs = l := rfl
@[simp] theorem applyTableWrite_store (f : BitVec 40) (i : BitVec 9) (e : Word) (l : List Input)
    (s : State) : (applyTableWrite f i e l s).store =
      writeWord s.store (entryAddress (f ++ 0#12) i) e := rfl

/-! ### The frame table's field writes -/

@[simp] theorem setRef_first (i : Fin 8) (b : Bool) (t : FrameTable) :
    (setRef i b t).first = t.first := rfl
@[simp] theorem setRef_last (i : Fin 8) (b : Bool) (t : FrameTable) :
    (setRef i b t).last = t.last := rfl
@[simp] theorem setRef_isFull (i : Fin 8) (b : Bool) (t : FrameTable) :
    (setRef i b t).isFull = t.isFull := rfl
@[simp] theorem setVa_first (i : Fin 8) (v : Word) (t : FrameTable) :
    (setVa i v t).first = t.first := rfl
@[simp] theorem setVa_last (i : Fin 8) (v : Word) (t : FrameTable) :
    (setVa i v t).last = t.last := rfl
@[simp] theorem setVa_isFull (i : Fin 8) (v : Word) (t : FrameTable) :
    (setVa i v t).isFull = t.isFull := rfl

/-- A write of one slot's `ref`, seen from any slot. -/
@[simp] theorem setRef_slot (i j : Fin 8) (b : Bool) (t : FrameTable) :
    (setRef i b t).slot j = if i = j then ⟨(t.slot j).va, b⟩ else t.slot j := by
  simp only [FrameTable.slot, setRef, Fin.getElem_fin, Vector.getElem_set, Fin.ext_iff]
  split
  · rename_i h
    simp [h]
  · rfl

/-- A write of one slot's `va`, seen from any slot. -/
@[simp] theorem setVa_slot (i j : Fin 8) (v : Word) (t : FrameTable) :
    (setVa i v t).slot j = if i = j then ⟨v, (t.slot j).ref⟩ else t.slot j := by
  simp only [FrameTable.slot, setVa, Fin.getElem_fin, Vector.getElem_set, Fin.ext_iff]
  split
  · rename_i h
    simp [h]
  · rfl

/-- Every slot of the table as created is empty. -/
@[simp] theorem empty_slot (i : Fin 8) : FrameTable.empty.slot i = PageFrame.empty := by
  simp [FrameTable.slot, FrameTable.empty]

end Sys2Proof.Machine
end

