-- ==== Sys2Proof/Laws/FrameTable.lean ====
section
/-! SUPPORT. What the frame table's shared procedures do, said once each. -/

namespace Sys2Proof.Machine

theorem mem_allSlots (i : Fin 8) : i ∈ allSlots := by
  revert i
  decide

/-- A slot that `find` answers holds the address. -/
theorem find_some {va : Word} {t : FrameTable} {i : Fin 8} (h : find va t = some i) :
    (t.slot i).va = va := by
  simpa using List.find?_some h

/-- `find` answers nothing exactly when no slot holds the address. -/
theorem find_none_iff {va : Word} {t : FrameTable} :
    find va t = none ↔ ∀ i : Fin 8, (t.slot i).va ≠ va := by
  simp only [find, List.find?_eq_none, beq_iff_eq]
  exact ⟨fun h i => h i (mem_allSlots i), fun h i _ => h i⟩

/-- Where no other slot holds the address, `find` answers the slot that does. -/
theorem find_unique {va : Word} {t : FrameTable} {i : Fin 8} (hi : (t.slot i).va = va)
    (hu : ∀ j : Fin 8, (t.slot j).va = va → j = i) : find va t = some i := by
  cases h : find va t with
  | none => exact absurd hi (find_none_iff.1 h i)
  | some j => rw [hu j (find_some h)]

/-- The cursors and the mark are not touched by the slot writes of a load. -/
@[simp] theorem loadSlot_first (i : Fin 8) (va : Word) (r : Option Bool) (t : FrameTable) :
    (loadSlot i va r t).first = t.first := by cases r <;> rfl
@[simp] theorem loadSlot_last (i : Fin 8) (va : Word) (r : Option Bool) (t : FrameTable) :
    (loadSlot i va r t).last = t.last := by cases r <;> rfl
@[simp] theorem loadSlot_isFull (i : Fin 8) (va : Word) (r : Option Bool) (t : FrameTable) :
    (loadSlot i va r t).isFull = t.isFull := by cases r <;> rfl

/-- A load seen from any slot: the slot loaded holds the address, and its `ref` is the policy's where
the policy writes it. -/
@[simp] theorem loadSlot_slot (i j : Fin 8) (va : Word) (r : Option Bool) (t : FrameTable) :
    (loadSlot i va r t).slot j = if i = j then ⟨va, r.getD (t.slot j).ref⟩ else t.slot j := by
  cases r <;> simp only [loadSlot, setRef_slot, setVa_slot] <;> split <;> simp

/-- Insertion into free capacity, field by field (42_frame_table R128). -/
@[simp] theorem insertFree_slot (va : Word) (r : Option Bool) (t : FrameTable) (j : Fin 8) :
    (insertFree va r t).slot j =
      if t.last = j then ⟨va, r.getD (t.slot j).ref⟩ else t.slot j :=
  loadSlot_slot t.last j va r t
@[simp] theorem insertFree_first (va : Word) (r : Option Bool) (t : FrameTable) :
    (insertFree va r t).first = t.first := loadSlot_first _ _ _ _
@[simp] theorem insertFree_last (va : Word) (r : Option Bool) (t : FrameTable) :
    (insertFree va r t).last = inc8 t.last := rfl
@[simp] theorem insertFree_isFull (va : Word) (r : Option Bool) (t : FrameTable) :
    (insertFree va r t).isFull = (decide (inc8 t.last = t.first) || t.isFull) := by
  by_cases h : inc8 t.last = t.first <;> simp [insertFree, h]

/-- Replacement at the hand, field by field (42_frame_table R129). -/
@[simp] theorem replaceAtFirst_slot (va : Word) (r : Option Bool) (t : FrameTable) (j : Fin 8) :
    (replaceAtFirst va r t).slot j =
      if t.first = j then ⟨va, r.getD (t.slot j).ref⟩ else t.slot j :=
  loadSlot_slot t.first j va r t
@[simp] theorem replaceAtFirst_first (va : Word) (r : Option Bool) (t : FrameTable) :
    (replaceAtFirst va r t).first = inc8 t.first := rfl
@[simp] theorem replaceAtFirst_last (va : Word) (r : Option Bool) (t : FrameTable) :
    (replaceAtFirst va r t).last = inc8 t.first := rfl
@[simp] theorem replaceAtFirst_isFull (va : Word) (r : Option Bool) (t : FrameTable) :
    (replaceAtFirst va r t).isFull = t.isFull := loadSlot_isFull _ _ _ _

/-- Two tables with the same cursors and mark, and the same slot at every index, are the same. -/
theorem FrameTable.ext_slots {t u : FrameTable} (hs : ∀ i : Fin 8, t.slot i = u.slot i)
    (hf : t.first = u.first) (hl : t.last = u.last) (hm : t.isFull = u.isFull) : t = u := by
  obtain ⟨s, f, l, m⟩ := t
  obtain ⟨s', f', l', m'⟩ := u
  have : s = s' := Vector.ext fun i hi => hs ⟨i, hi⟩
  simp_all

/-- One turn of the scan's loop: the slot at the hand is passed over (44_clock R153). -/
def passHand (t : FrameTable) : FrameTable :=
  { setRef t.first false t with first := inc8 t.first }

@[simp] theorem passHand_first (t : FrameTable) : (passHand t).first = inc8 t.first := rfl
@[simp] theorem passHand_last (t : FrameTable) : (passHand t).last = t.last := rfl
@[simp] theorem passHand_isFull (t : FrameTable) : (passHand t).isFull = t.isFull := rfl
@[simp] theorem passHand_slot (t : FrameTable) (j : Fin 8) :
    (passHand t).slot j = if t.first = j then ⟨(t.slot j).va, false⟩ else t.slot j :=
  setRef_slot t.first j false t

theorem clockScan_succ (n : Nat) (t : FrameTable) :
    clockScan (n + 1) t = if (t.slot t.first).ref then clockScan n (passHand t) else t := rfl

/-- What the eviction scan never touches, whatever the fuel (44_clock R153). -/
theorem clockScan_frame (n : Nat) (t : FrameTable) :
    (∀ i : Fin 8, ((clockScan n t).slot i).va = (t.slot i).va) ∧
      (clockScan n t).last = t.last ∧ (clockScan n t).isFull = t.isFull := by
  induction n generalizing t with
  | zero => simp [clockScan]
  | succ n ih =>
    rw [clockScan_succ]
    split
    · obtain ⟨h1, h2, h3⟩ := ih (passHand t)
      refine ⟨fun i => (h1 i).trans ?_, h2, h3⟩
      rw [passHand_slot]
      split <;> rfl
    · simp

/-- The scan only clears `ref` bits (44_clock R153). -/
theorem clockScan_ref_le (n : Nat) (t : FrameTable) (i : Fin 8)
    (h : ((clockScan n t).slot i).ref = true) : (t.slot i).ref = true := by
  induction n generalizing t with
  | zero => exact h
  | succ n ih =>
    rw [clockScan_succ] at h
    split at h
    · have := ih _ h
      rw [passHand_slot] at this
      split at this
      · simp at this
      · exact this
    · exact h

end Sys2Proof.Machine
end

