-- ==== Sys2Proof/Laws/Exec.lean ====
section
/-! SUPPORT. What a command and a step can do, said once. -/

namespace Sys2Proof.Machine

/-- The four cases of MAP under FIFO, with what each answers (43_fifo R140). -/
theorem mapFifo_cases (va : Word) (t : FrameTable) :
    (va = 0 ∧ mapFifo va t = answerIgnored t) ∨
    (va ≠ 0 ∧ ∃ i, find va t = some i ∧ mapFifo va t = answerHit t) ∨
    (va ≠ 0 ∧ find va t = none ∧ t.isFull = false ∧ mapFifo va t = answerLoaded va none t) ∨
    (va ≠ 0 ∧ find va t = none ∧ t.isFull = true ∧ mapFifo va t = answerReplaced va none t) := by
  unfold mapFifo
  by_cases h : va = 0
  · exact .inl ⟨h, if_pos h⟩
  · rw [if_neg h]
    cases hf : find va t with
    | some i => exact .inr (.inl ⟨h, i, rfl, rfl⟩)
    | none =>
      cases hm : t.isFull
      · exact .inr (.inr (.inl ⟨h, rfl, rfl, rfl⟩))
      · exact .inr (.inr (.inr ⟨h, rfl, rfl, rfl⟩))

/-- The four cases of MAP under CLOCK, with what each answers (44_clock R150). -/
theorem mapClock_cases (va : Word) (t : FrameTable) :
    (va = 0 ∧ mapClock va t = answerIgnored t) ∨
    (va ≠ 0 ∧ ∃ i, find va t = some i ∧ mapClock va t = answerHit (touchSlot i t)) ∨
    (va ≠ 0 ∧ find va t = none ∧ t.isFull = false ∧
      mapClock va t = answerLoaded va (some true) t) ∨
    (va ≠ 0 ∧ find va t = none ∧ t.isFull = true ∧
      mapClock va t = answerReplaced va (some true) (clockScan scanFuel t)) := by
  unfold mapClock
  by_cases h : va = 0
  · exact .inl ⟨h, if_pos h⟩
  · rw [if_neg h]
    cases hf : find va t with
    | some i => exact .inr (.inl ⟨h, i, rfl, rfl⟩)
    | none =>
      cases hm : t.isFull
      · exact .inr (.inr (.inl ⟨h, rfl, rfl, rfl⟩))
      · exact .inr (.inr (.inr ⟨h, rfl, rfl, rfl⟩))

/-- A bit command with a legal index answers its value (40_flag_decoder R93). -/
theorem bitCommand_legal {n : Nat} (f : Word → Word) (s : State) (h : n < 64) :
    bitCommand n f s = respond .ok 0 (some (f s.port.a)) s := if_pos h

/-- A bit command with an index above 63 answers BAD_BITPOS (40_flag_decoder R93). -/
theorem bitCommand_illegal {n : Nat} (f : Word → Word) (s : State) (h : 64 ≤ n) :
    bitCommand n f s = respond .badBitpos 0 none s := if_neg (Nat.not_lt.2 h)

/-- `pte_to_physical` on a present entry (41_address_translator R107). -/
theorem respondPhysical_present {pte : Word} (va : Word) (s : State) (h : isPresent pte = true) :
    respondPhysical pte va s = respond .ok 0 (some (physicalAddress pte va)) s := by
  simp [respondPhysical, pteToPhysical, h, respondValue]

/-- `pte_to_physical` on an entry that is not present (41_address_translator R108). -/
theorem respondPhysical_absent {pte : Word} (va : Word) (s : State) (h : isPresent pte = false) :
    respondPhysical pte va s = respond .pageFault 0 none s := by
  simp [respondPhysical, pteToPhysical, h, raisePageFault, raiseCondition]

/-- One more level of a walk whose entry is present (45_walker R166). -/
theorem walkLevels_present {m : Memory} {va h : Word} {k : Level} (ks : List Level)
    (hp : isPresent (tblRead m ⟨tableBase h, indexLevel k va⟩) = true) :
    walkLevels m va (k :: ks) h =
      { walkLevels m va ks (tblRead m ⟨tableBase h, indexLevel k va⟩) with
        reads := ⟨tableBase h, indexLevel k va⟩ ::
          (walkLevels m va ks (tblRead m ⟨tableBase h, indexLevel k va⟩)).reads } := by
  simp [walkLevels, hp]

/-- A walk stops at the first entry that is not present (45_walker R167). -/
theorem walkLevels_absent {m : Memory} {va h : Word} {k : Level} (ks : List Level)
    (hp : isPresent (tblRead m ⟨tableBase h, indexLevel k va⟩) = false) :
    walkLevels m va (k :: ks) h = ⟨[⟨tableBase h, indexLevel k va⟩], .error k⟩ := by
  simp [walkLevels, hp]

/-- What one step does, by the caller's next input (70_reset R222). -/
theorem step_cases (s : State) :
    (s.inputs = [] ∧ step s = .next s) ∨
    (∃ c rest i, s.inputs = .command c :: rest ∧ decode c.cmd = .ok i ∧
      step s = exec i (present c rest s)) ∨
    (∃ c rest e, s.inputs = .command c :: rest ∧ decode c.cmd = .error e ∧
      step s = .next (raiseIllegalCommand (present c rest s))) ∨
    (∃ p rest, s.inputs = .reset p :: rest ∧ step s = .next (applyReset p rest s)) ∨
    (∃ f i e rest, s.inputs = .tableWrite f i e :: rest ∧
      step s = .next (applyTableWrite f i e rest s)) := by
  unfold step
  split
  · rename_i h
    exact .inl ⟨h, rfl⟩
  · rename_i c rest h
    simp only [runPort, present_port]
    cases hd : decode c.cmd with
    | ok i => exact .inr (.inl ⟨c, rest, i, h, hd, rfl⟩)
    | error e => exact .inr (.inr (.inl ⟨c, rest, e, h, hd, rfl⟩))
  · rename_i p rest h
    exact .inr (.inr (.inr (.inl ⟨p, rest, h, rfl⟩)))
  · rename_i f i e rest h
    exact .inr (.inr (.inr (.inr ⟨f, i, e, rest, h, rfl⟩)))

end Sys2Proof.Machine
end

