-- ==== Sys2Proof/Laws/Memory.lean ====
section
/-! SUPPORT. The table store: every operation keeps the canonical form, a read gives what was last
written, and a write leaves every other address alone. -/

namespace Sys2Proof.Machine

theorem Memory.wf_nil : Memory.wf [] := by simp [Memory.wf]

theorem Memory.wf_tail {c : Host.Cell} {m : Memory} (h : Memory.wf (c :: m)) : Memory.wf m :=
  ⟨(List.pairwise_cons.1 h.1).2, fun d hd => h.2 d (List.mem_cons_of_mem _ hd)⟩

theorem Memory.wf_head {c : Host.Cell} {m : Memory} (h : Memory.wf (c :: m)) :
    ∀ d ∈ m, c.1 < d.1 := (List.pairwise_cons.1 h.1).1

/-- An address below every listed one reads as unlisted. -/
theorem readByte_below {m : Memory} {a : Nat} (h : ∀ d ∈ m, a < d.1) :
    readByte m a = unlistedByte := by
  induction m with
  | nil => rfl
  | cons c m ih =>
    have hc := h c List.mem_cons_self
    simp only [readByte]
    rw [if_neg (by omega)]
    exact ih fun d hd => h d (List.mem_cons_of_mem _ hd)

theorem mem_consByte {a : Nat} {b : Byte} {m : Memory} {d : Host.Cell} (h : d ∈ consByte a b m) :
    d = (a, b) ∨ d ∈ m := by
  unfold consByte at h
  split at h
  · exact .inr h
  · exact List.mem_cons.1 h

theorem consByte_wf {a : Nat} {b : Byte} {m : Memory} (ha : a < 2 ^ 52) (hm : m.wf)
    (h : ∀ d ∈ m, a < d.1) : (consByte a b m).wf := by
  unfold consByte
  split
  · exact hm
  · rename_i hb
    exact ⟨List.pairwise_cons.2 ⟨h, hm.1⟩,
      fun d hd => (List.mem_cons.1 hd).elim (fun e => e ▸ ⟨hb, ha⟩) (hm.2 d)⟩

theorem readByte_consByte {a x : Nat} {b : Byte} {m : Memory} (h : ∀ d ∈ m, a < d.1) :
    readByte (consByte a b m) x = if x = a then b else readByte m x := by
  unfold consByte
  split
  · rename_i hb
    split
    · rename_i hx
      rw [hx, readByte_below h, hb]
    · rfl
  · simp only [readByte, eq_comm]

theorem mem_writeByte {a : Nat} {b : Byte} {m : Memory} {d : Host.Cell}
    (h : d ∈ writeByte m a b) : d = (a, b) ∨ d ∈ m := by
  induction m with
  | nil => exact mem_consByte h
  | cons c m ih =>
    simp only [writeByte] at h
    split at h
    · exact mem_consByte h
    · split at h
      · exact (mem_consByte h).imp_right (List.mem_cons_of_mem _)
      · obtain h | h := List.mem_cons.1 h
        · exact .inr (h ▸ List.mem_cons_self)
        · exact (ih h).imp_right (List.mem_cons_of_mem _)

/-- A byte write inside the address space keeps the canonical form. -/
theorem writeByte_wf {a : Nat} {b : Byte} {m : Memory} (ha : a < 2 ^ 52) (hm : m.wf) :
    (writeByte m a b).wf := by
  induction m with
  | nil => exact consByte_wf ha hm (by simp)
  | cons c m ih =>
    have hc := Memory.wf_head hm
    simp only [writeByte]
    split
    · rename_i h
      refine consByte_wf ha hm fun d hd => ?_
      obtain rfl | hd := List.mem_cons.1 hd
      · exact h
      · exact h.trans (hc d hd)
    · rename_i h
      split
      · rename_i e
        exact consByte_wf ha (Memory.wf_tail hm) fun d hd => e ▸ hc d hd
      · rename_i e
        have hw := ih (Memory.wf_tail hm)
        refine ⟨List.pairwise_cons.2 ⟨fun d hd => ?_, hw.1⟩, fun d hd => ?_⟩
        · obtain rfl | hd := mem_writeByte hd
          · show c.1 < a
            omega
          · exact hc d hd
        · obtain rfl | hd := List.mem_cons.1 hd
          · exact hm.2 d List.mem_cons_self
          · exact hw.2 d hd

/-- The byte law: a write is seen at its own address and nowhere else. -/
theorem readByte_writeByte {a x : Nat} {b : Byte} {m : Memory} (hm : m.wf) :
    readByte (writeByte m a b) x = if x = a then b else readByte m x := by
  induction m with
  | nil => exact readByte_consByte (by simp)
  | cons c m ih =>
    have hc := Memory.wf_head hm
    simp only [writeByte]
    split
    · rename_i h
      refine readByte_consByte fun d hd => ?_
      obtain rfl | hd := List.mem_cons.1 hd
      · exact h
      · exact h.trans (hc d hd)
    · rename_i h
      split
      · rename_i e
        rw [readByte_consByte fun d hd => e ▸ hc d hd]
        simp only [readByte]
        split
        · rfl
        · rw [if_neg (by omega)]
      · rename_i e
        simp only [readByte, ih (Memory.wf_tail hm)]
        split
        · rename_i hx
          rw [if_neg (by omega)]
        · rfl

/-- The eight byte writes of a word, spelled out. -/
theorem writeWord_eq (m : Memory) (a : Nat) (v : Word) :
    writeWord m a v =
      writeByte (writeByte (writeByte (writeByte (writeByte (writeByte (writeByte
        (writeByte m a (byteOf v 0)) (a + 1) (byteOf v 1)) (a + 2) (byteOf v 2)) (a + 3)
        (byteOf v 3)) (a + 4) (byteOf v 4)) (a + 5) (byteOf v 5)) (a + 6) (byteOf v 6)) (a + 7)
        (byteOf v 7) := rfl

/-- A word write inside the address space keeps the canonical form. -/
theorem writeWord_wf {a : Nat} {v : Word} {m : Memory} (ha : a + 8 ≤ 2 ^ 52) (hm : m.wf) :
    (writeWord m a v).wf := by
  rw [writeWord_eq]
  iterate 8 refine writeByte_wf (by omega) ?_
  exact hm

/-- Every byte after a word write: the word's own bytes, and all others as before. -/
theorem readByte_writeWord {a x : Nat} {v : Word} {m : Memory} (ha : a + 8 ≤ 2 ^ 52) (hm : m.wf) :
    readByte (writeWord m a v) x =
      if a ≤ x ∧ x < a + 8 then byteOf v (x - a) else readByte m x := by
  have h0 := writeByte_wf (b := byteOf v 0) (a := a) (by omega) hm
  have h1 := writeByte_wf (b := byteOf v 1) (a := a + 1) (by omega) h0
  have h2 := writeByte_wf (b := byteOf v 2) (a := a + 2) (by omega) h1
  have h3 := writeByte_wf (b := byteOf v 3) (a := a + 3) (by omega) h2
  have h4 := writeByte_wf (b := byteOf v 4) (a := a + 4) (by omega) h3
  have h5 := writeByte_wf (b := byteOf v 5) (a := a + 5) (by omega) h4
  have h6 := writeByte_wf (b := byteOf v 6) (a := a + 6) (by omega) h5
  rw [writeWord_eq, readByte_writeByte h6, readByte_writeByte h5, readByte_writeByte h4,
    readByte_writeByte h3, readByte_writeByte h2, readByte_writeByte h1, readByte_writeByte h0,
    readByte_writeByte hm]
  by_cases hx : a ≤ x ∧ x < a + 8
  · rw [if_pos hx]
    obtain ⟨k, rfl⟩ := Nat.exists_eq_add_of_le hx.1
    have hk : k < 8 := by omega
    rw [show a + k - a = k by omega]
    interval_cases k <;> simp
  · rw [if_neg hx]
    repeat rw [if_neg (by omega)]

/-- Two neighbouring fields of a word put together. -/
theorem extract_append (v : Word) (s w w' : Nat) :
    (v.extractLsb' (s + w) w' ++ v.extractLsb' s w : BitVec (w' + w)) = v.extractLsb' s (w' + w) :=
  BitVec.extractLsb'_append_extractLsb'_eq_extractLsb' rfl

/-- The bytes of a word put together again. -/
theorem bytes_of_word (v : Word) :
    (byteOf v 7 ++ byteOf v 6 ++ byteOf v 5 ++ byteOf v 4 ++ byteOf v 3 ++ byteOf v 2 ++
      byteOf v 1 ++ byteOf v 0 : BitVec 64) = v := by
  simp only [byteOf]
  rw [extract_append v 48 8 8, extract_append v 40 8, extract_append v 32 8,
    extract_append v 24 8, extract_append v 16 8, extract_append v 8 8, extract_append v 0 8]
  exact BitVec.extractLsb'_eq_self

/-- A word read after the write of the same word. -/
theorem readWord_writeWord_same {a : Nat} {v : Word} {m : Memory} (ha : a + 8 ≤ 2 ^ 52)
    (hm : m.wf) : readWord (writeWord m a v) a = v := by
  have h : ∀ k, k < 8 → readByte (writeWord m a v) (a + k) = byteOf v k := fun k hk => by
    rw [readByte_writeWord ha hm, if_pos (by omega), show a + k - a = k by omega]
  unfold readWord
  rw [h 7 (by omega), h 6 (by omega), h 5 (by omega), h 4 (by omega), h 3 (by omega),
    h 2 (by omega), h 1 (by omega), show readByte (writeWord m a v) a = byteOf v 0 from h 0 (by omega)]
  exact bytes_of_word v

/-- A word read where no byte was written. -/
theorem readWord_writeWord_other {a b : Nat} {v : Word} {m : Memory} (ha : a + 8 ≤ 2 ^ 52)
    (hm : m.wf) (hab : b + 8 ≤ a ∨ a + 8 ≤ b) : readWord (writeWord m a v) b = readWord m b := by
  have h : ∀ k, k < 8 → readByte (writeWord m a v) (b + k) = readByte m (b + k) := fun k hk => by
    rw [readByte_writeWord ha hm, if_neg (by omega)]
  unfold readWord
  rw [h 7 (by omega), h 6 (by omega), h 5 (by omega), h 4 (by omega), h 3 (by omega),
    h 2 (by omega), h 1 (by omega),
    show readByte (writeWord m a v) b = readByte m b from h 0 (by omega)]

/-- The number of a table base is 4096 times its frame's (20_memory R57). -/
theorem base_toNat (f : BitVec 40) : (f ++ 0#12 : BitVec 52).toNat = f.toNat * 4096 := by
  rw [BitVec.toNat_append]
  simp [Nat.shiftLeft_eq]

/-- An entry lies inside the 52-bit space. -/
theorem entryAddress_bound (f : BitVec 40) (i : BitVec 9) :
    entryAddress (f ++ 0#12) i + 8 ≤ 2 ^ 52 := by
  rw [entryAddress, base_toNat]
  have := f.isLt
  have := i.isLt
  omega

/-- Two entries are the same or do not overlap. -/
theorem entryAddress_apart {f g : BitVec 40} {i j : BitVec 9} (h : ¬(f = g ∧ i = j)) :
    entryAddress (f ++ 0#12) i + 8 ≤ entryAddress (g ++ 0#12) j ∨
      entryAddress (g ++ 0#12) j + 8 ≤ entryAddress (f ++ 0#12) i := by
  rw [entryAddress, entryAddress, base_toNat, base_toNat]
  rw [← BitVec.toNat_inj, ← BitVec.toNat_inj] at h
  have := i.isLt
  have := j.isLt
  omega

/-- The table store's law: after an entry is written, that entry reads as written and every other entry
as before (20_memory R68). -/
theorem tblRead_writeWord {m : Memory} (hm : m.wf) (f g : BitVec 40) (i j : BitVec 9) (e : Word) :
    tblRead (writeWord m (entryAddress (f ++ 0#12) i) e) ⟨g ++ 0#12, j⟩ =
      if f = g ∧ i = j then e else tblRead m ⟨g ++ 0#12, j⟩ := by
  unfold tblRead
  split
  · rename_i h
    obtain ⟨rfl, rfl⟩ := h
    exact readWord_writeWord_same (entryAddress_bound _ _) hm
  · rename_i h
    exact readWord_writeWord_other (entryAddress_bound _ _) hm (entryAddress_apart h).symm

end Sys2Proof.Machine
end

