-- ==== Sys2Proof/Laws/PerInstr.lean ====
section
/-! SUPPORT. A fact about every command as syntax: the three fields of its word (30_encoding R71). -/

namespace Sys2Proof

/-- The fields of a word put together from its parts. -/
theorem fields_of_parts (n : Nat) (op : BitVec 4) :
    opField (BitVec.ofNat 8 n ++ (0#4 ++ op)) = op ∧
      rsvField (BitVec.ofNat 8 n ++ (0#4 ++ op)) = 0 ∧
      nField (BitVec.ofNat 8 n ++ (0#4 ++ op)) = BitVec.ofNat 8 n := by
  refine ⟨?_, ?_, ?_⟩
  · apply BitVec.eq_of_getLsbD_eq
    intro i hi
    simp only [opField, BitVec.getLsbD_extractLsb', BitVec.getLsbD_append]
    simp [hi]
    omega
  · apply BitVec.eq_of_getLsbD_eq
    intro i hi
    simp only [rsvField, BitVec.getLsbD_extractLsb', BitVec.getLsbD_append]
    have : 4 + i < 4 + 4 := by omega
    simp [this]
  · apply BitVec.eq_of_getLsbD_eq
    intro i hi
    simp only [nField, BitVec.getLsbD_extractLsb', BitVec.getLsbD_append]
    have : ¬ 8 + i < 4 + 4 := by omega
    simp [hi, this]

namespace Laws.CommandFields

/-- The word of a command carries its opcode in `op`, 0 in `rsv` and its index operand in `n`. -/
def Statement (i : Instr) : Prop :=
  i.wellFormed = true →
    opField (encode i) = opcode i ∧ rsvField (encode i) = 0 ∧
      (nField (encode i)).toNat = indexOperand i

theorem of_parts {i : Instr} (h : indexOperand i < 256) : Statement i := fun _ => by
  obtain ⟨h1, h2, h3⟩ := fields_of_parts (indexOperand i) (opcode i)
  refine ⟨h1, h2, ?_⟩
  rw [encode, h3, BitVec.toNat_ofNat]
  exact Nat.mod_eq_of_lt h

theorem index_lt {n : Nat} (h : indexEncodable n = true) : n < 256 := of_decide_eq_true h

theorem setbit (n : Nat) : Statement (.setbit n) :=
  fun w => of_parts (i := .setbit n) (index_lt w) w
theorem testbit (n : Nat) : Statement (.testbit n) :=
  fun w => of_parts (i := .testbit n) (index_lt w) w
theorem clrbit (n : Nat) : Statement (.clrbit n) :=
  fun w => of_parts (i := .clrbit n) (index_lt w) w
theorem idx1 : Statement .idx1 := of_parts (by decide)
theorem idx2 : Statement .idx2 := of_parts (by decide)
theorem idx3 : Statement .idx3 := of_parts (by decide)
theorem idx4 : Statement .idx4 := of_parts (by decide)
theorem pte2pa : Statement .pte2pa := of_parts (by decide)
theorem map : Statement .map := of_parts (by decide)
theorem access : Statement .access := of_parts (by decide)
theorem walk : Statement .walk := of_parts (by decide)

end Laws.CommandFields

end Sys2Proof
end

