-- ==== Sys2Proof/Tests/Slice0.lean ====
section
/-! SUPPORT. Tests. Expected values are those of 95_test_vectors (worked out there from the rules, not from
this model) unless a test names another source. The last part shows, for every statement with
hypotheses, concrete states and operands that meet them. -/

namespace Sys2Proof.Tests

open Sys2Proof Sys2Proof.Machine

/-! ### Helpers -/

/-- The state a step or a command went to. -/
def after (o : Host.Outcome State Fault Refusal) : Option State :=
  match o with
  | .next s => some s
  | .fault _ => none
  | .refused _ => none

/-- A frame table written as 95_test_vectors writes it. -/
def tableOf (vas : Vector Word 8) (refs : Vector Bool 8) (hand last : Fin 8) (full : Bool) : FrameTable :=
  { slots := Vector.ofFn (fun i => ⟨vas[i], refs[i]⟩), first := hand, last := last, isFull := full }

/-- No `ref` bit set. -/
def noRefs : Vector Bool 8 := Vector.replicate 8 false

/-- All `ref` bits set. -/
def allRefs : Vector Bool 8 := Vector.replicate 8 true

/-- A state with that table, its trace empty. -/
def withTable (p : Policy) (t : FrameTable) : State := { State.resetWith p with table := t }

/-- One command is presented, and nothing after it. -/
def presenting (s : State) (w : BitVec 16) (a b : Word) : State := { s with inputs := [.command ⟨w, a, b⟩] }

/-- The response to one command. -/
def response (s : State) (w : BitVec 16) (a b : Word) : Option Response :=
  (after (step (presenting s w a b))).bind (fun t => t.responses.getLast?)

/-- Table, events and response of one command. -/
def effect (s : State) (w : BitVec 16) (a : Word) : Option (FrameTable × List Event × List Response) :=
  (after (step (presenting s w a 0))).map (fun t => (t.table, t.trace, t.responses))

/-- The table store of 95_test_vectors 2.8. -/
def store28 : Memory :=
  [(0x1000, 0x024, 0x2003), (0x2000, 0x0D1, 0x3003), (0x3000, 0x0B3, 0x4003),
    (0x4000, 0x189, 0x12345007), (0x4000, 0x18A, 0x0BADF006)].foldl
    (fun (m : Memory) (r : BitVec 52 × BitVec 9 × Word) => writeWord m (entryAddress r.1 r.2.1) r.2.2) []

/-- A state with that store. -/
def walkState (p : Policy) : State := { State.resetWith p with store := store28 }

/-- Requests and response of one WALK. -/
def walked (a b : Word) : Option (List TblReq × List Response) :=
  (after (step (presenting (walkState .fifo) 0x000B a b))).map (fun t => (t.reads, t.responses))

/-- The table after filling, V-FIFO-1. -/
def fifoFull : FrameTable := tableOf #v[1, 2, 3, 4, 5, 6, 7, 8] noRefs 0 0 true

/-- The table after filling, V-CLK-0. -/
def clockFull : FrameTable := tableOf #v[1, 2, 3, 4, 5, 6, 7, 8] allRefs 0 0 true

/-- The table in the middle of V-CLK-6. -/
def clockMixed : FrameTable :=
  tableOf #v[0x9000, 0x2000, 0x3000, 0x4000, 0x5000, 0x6000, 0x7000, 0x8000]
    #v[true, true, true, false, true, false, false, false] 1 1 true

/-- The table after seven loads of V-FIFO-1: the next load fills it. -/
def almostFull (refs : Vector Bool 8) : FrameTable := tableOf #v[1, 2, 3, 4, 5, 6, 7, 0] refs 0 7 false

/-! ### Well-formedness: what the check refuses (30_encoding R71: `n` is 8 bits wide) -/

theorem test_wellformed_refuses_setbit_256 : (Instr.setbit 256).wellFormed = false := by decide
theorem test_wellformed_refuses_testbit_256 : (Instr.testbit 256).wellFormed = false := by decide
theorem test_wellformed_refuses_clrbit_256 : (Instr.clrbit 256).wellFormed = false := by decide
theorem test_wellformed_accepts_255 :
    (Instr.setbit 255).wellFormed && (Instr.testbit 255).wellFormed && (Instr.clrbit 255).wellFormed = true := by
  decide

/-! ### Decoding: words written out as `n` (15:8), `rsv` (7:4), `op` (3:0) (30_encoding R71, R77) -/

theorem test_decode_setbit : decode (0b00111111#8 ++ 0b0000#4 ++ 0b0001#4) = .ok (.setbit 63) := by decide
theorem test_decode_setbit_64 : decode (0b01000000#8 ++ 0b0000#4 ++ 0b0001#4) = .ok (.setbit 64) := by decide
theorem test_decode_testbit : decode (0b00000010#8 ++ 0b0000#4 ++ 0b0010#4) = .ok (.testbit 2) := by decide
theorem test_decode_clrbit : decode (0b11111111#8 ++ 0b0000#4 ++ 0b0011#4) = .ok (.clrbit 255) := by decide
theorem test_decode_idx1 : decode (0b00000000#8 ++ 0b0000#4 ++ 0b0100#4) = .ok .idx1 := by decide
theorem test_decode_idx2 : decode (0b00000000#8 ++ 0b0000#4 ++ 0b0101#4) = .ok .idx2 := by decide
theorem test_decode_idx3 : decode (0b00000000#8 ++ 0b0000#4 ++ 0b0110#4) = .ok .idx3 := by decide
theorem test_decode_idx4 : decode (0b00000000#8 ++ 0b0000#4 ++ 0b0111#4) = .ok .idx4 := by decide
theorem test_decode_pte2pa : decode (0b00000000#8 ++ 0b0000#4 ++ 0b1000#4) = .ok .pte2pa := by decide
theorem test_decode_map : decode (0b00000000#8 ++ 0b0000#4 ++ 0b1001#4) = .ok .map := by decide
theorem test_decode_access : decode (0b00000000#8 ++ 0b0000#4 ++ 0b1010#4) = .ok .access := by decide
theorem test_decode_walk : decode (0b00000000#8 ++ 0b0000#4 ++ 0b1011#4) = .ok .walk := by decide

/-- 95_test_vectors 2.1, the illegal rows. -/
theorem test_decode_illegal :
    [0x0000, 0x000C, 0x000D, 0x000E, 0x000F, 0x0011, 0x0104, 0x0109, 0xFFFF, 0x4011].all
      (fun w => (decode w).toOption.isNone) = true := by decide

/-- The worked encodings of the flag commands (30_encoding R83): `setflag A, USERSUPERVISOR`. -/
theorem test_encode_setflag : encode (setflag .userSupervisor) = 0x0201 := by decide

/-- The host's view of the decoder, with the format B row's eight bits and with all sixteen. -/
theorem test_decode_table_word :
    decodeTableWord 8 0x01 = some (.setbit 0) ∧ decodeTableWord 16 0x3F02 = some (.testbit 63) ∧
      decodeTableWord 16 0x000B = some .walk ∧ decodeTableWord 16 0x0000 = none := by decide

/-- The host's first instruction after reset: the very next step answers it. -/
theorem test_fetch_word_runs_next :
    (after (step (State.reset.withFetchWord 16 0x0001))).map (fun t => t.responses) =
      some [⟨0, 0, some 1⟩] := by decide

/-- MAP as the first instruction after reset: a next state whatever the strap. -/
theorem test_fetch_word_runs_map :
    (after (step (State.reset.withFetchWord 16 0x0009))).isSome = true := by decide

/-! ### One step of each command -/

theorem test_setbit_63 : response (State.resetWith .fifo) 0x3F01 0 0 =
    some ⟨0, 0, some 0x8000000000000000⟩ := by decide
theorem test_setbit_64 : response (State.resetWith .fifo) 0x4001 5 0 = some ⟨3, 0, none⟩ := by decide

theorem test_testbit_62 : response (State.resetWith .fifo) 0x3E02 0x8000000000000000 0 =
    some ⟨0, 0, some 0⟩ := by decide
theorem test_testbit_2 : response (State.resetWith .fifo) 0x0202 0x12345006 0 =
    some ⟨0, 0, some 1⟩ := by decide

theorem test_clrbit_63 : response (State.resetWith .fifo) 0x3F03 0xFFFFFFFFFFFFFFFF 0 =
    some ⟨0, 0, some 0x7FFFFFFFFFFFFFFF⟩ := by decide
theorem test_clrbit_already_clear : response (State.resetWith .fifo) 0x0003 0 0 =
    some ⟨0, 0, some 0⟩ := by decide

theorem test_idx1_mask : response (State.resetWith .fifo) 0x0004 0xDEADBEEFCAFEF00D 0 =
    some ⟨0, 0, some 0x17D⟩ := by decide
theorem test_idx2_mask : response (State.resetWith .fifo) 0x0005 0xDEADBEEFCAFEF00D 0 =
    some ⟨0, 0, some 0x1BF⟩ := by decide
theorem test_idx3_mask : response (State.resetWith .fifo) 0x0006 0xDEADBEEFCAFEF00D 0 =
    some ⟨0, 0, some 0x057⟩ := by decide
theorem test_idx4_mask : response (State.resetWith .fifo) 0x0007 0xDEADBEEFCAFEF00D 0 =
    some ⟨0, 0, some 0x1EF⟩ := by decide

theorem test_pte2pa_nothing_leaks : response (State.resetWith .fifo) 0x0008 0xFFFFFFFFFFFFFFFF 0 =
    some ⟨0, 0, some 0x000FFFFFFFFFF000⟩ := by decide
theorem test_pte2pa_not_present : response (State.resetWith .fifo) 0x0008 0xFFFFFFFFFFFFFFFE 0x123 =
    some ⟨1, 0, none⟩ := by decide

/-- V-CLK-6: the scan passes two slots. -/
theorem test_map_clock_scan : effect (withTable .clock clockMixed) 0x0009 0xA000 =
    some (tableOf #v[0x9000, 0x2000, 0x3000, 0xA000, 0x5000, 0x6000, 0x7000, 0x8000]
        #v[true, false, false, true, true, false, false, false] 4 4 true,
      [.evict 0x4000, .load 0xA000], [⟨0, 3, none⟩]) := by decide

/-- V-CLK-1: the full sweep. -/
theorem test_map_clock_sweep : effect (withTable .clock clockFull) 0x0009 9 =
    some (tableOf #v[9, 2, 3, 4, 5, 6, 7, 8]
        #v[true, false, false, false, false, false, false, false] 1 1 true,
      [.evict 1, .load 9], [⟨0, 3, none⟩]) := by decide

/-- V-FIFO-4: a miss by ACCESS. -/
theorem test_access_fifo_miss :
    effect (withTable .fifo (tableOf #v[9, 2, 3, 4, 5, 6, 7, 8] noRefs 1 1 true)) 0x000A 1 =
    some (tableOf #v[9, 1, 3, 4, 5, 6, 7, 8] noRefs 2 2 true, [.evict 2, .load 1],
      [⟨0, 3, none⟩]) := by decide

/-- V-CLK-2: a hit by ACCESS. -/
theorem test_access_clock_hit :
    effect (withTable .clock (tableOf #v[9, 2, 3, 4, 5, 6, 7, 8]
        #v[true, false, false, false, false, false, false, false] 1 1 true)) 0x000A 2 =
    some (tableOf #v[9, 2, 3, 4, 5, 6, 7, 8]
        #v[true, true, false, false, false, false, false, false] 1 1 true, [],
      [⟨0, 1, none⟩]) := by decide

/-- V-FIFO-1: the eighth load wraps `last` and fills the table. -/
theorem test_map_fills : effect (withTable .fifo (almostFull noRefs)) 0x0009 8 =
    some (fifoFull, [.load 8], [⟨0, 2, none⟩]) := by decide

/-- 95_test_vectors 2.8, the rows where root bits are ignored. -/
theorem test_walk_ok : walked 0x0000123456789ABC 0xFFF0000000001FFF =
    some ([⟨0x1000, 0x024⟩, ⟨0x2000, 0x0D1⟩, ⟨0x3000, 0x0B3⟩, ⟨0x4000, 0x189⟩],
      [⟨0, 0, some 0x12345ABC⟩]) := by decide

/-- 95_test_vectors 2.8: the third level is missing. -/
theorem test_walk_fault : walked 0x0000123456989ABC 0x1000 =
    some ([⟨0x1000, 0x024⟩, ⟨0x2000, 0x0D1⟩, ⟨0x3000, 0x0B4⟩], [⟨1, 3, none⟩]) := by decide

/-- 60_exceptions R187: ILLEGAL_CMD, not BAD_BITPOS. -/
theorem test_illegal_before_bad_index :
    response (State.resetWith .fifo) 0x4011 5 5 = some ⟨2, 0, none⟩ := by decide

/-- 70_reset R210: a reset in mid-run, with the strap changed. -/
theorem test_reset_step :
    (after (step { withTable .fifo fifoFull with trace := [.load 1], inputs := [.reset .clock] })).map
      (fun t => (t.table, t.policy, t.trace)) = some (FrameTable.empty, .clock, []) := by decide

/-- 20_memory R68: the caller's write is what the next read answers. -/
theorem test_table_write :
    (after (step { walkState .fifo with inputs := [.tableWrite 4 0x18A 0x0BADF007] })).map
      (fun t => tblRead t.store ⟨0x4000, 0x18A⟩) = some 0x0BADF007 := by decide

/-! ### Witnesses: the hypotheses of every statement are met, clause by clause -/

/-- A state at rest with one more input to come. -/
def next1 (s : State) (i : Input) : State := { s with inputs := [i] }

/-- A command input. -/
def cmd (w : BitVec 16) (a b : Word) : Input := .command ⟨w, a, b⟩

/-- A state whose command port carries `a`, ready for `exec`. -/
def onPort (s : State) (a b : Word) : State := { s with port := ⟨0, a, b⟩ }

/-- A response that was given. -/
def ok5 : Response := ⟨0, 0, some 5⟩

theorem witness_DecodeUndoesEncode :
    (Instr.setbit 0).wellFormed ∧ (Instr.testbit 64).wellFormed ∧ (Instr.clrbit 255).wellFormed ∧
      Instr.idx1.wellFormed ∧ Instr.walk.wellFormed := by decide

theorem witness_EncodeUndoesDecode :
    decode 0xFF03 = .ok (.clrbit 255) ∧ decode 0x000A = .ok .access := by decide

/-- One word for each clause of the decoder's procedure, and the four kinds of illegal word. -/
theorem witness_DecoderProcedure :
    (((0xFF01 : BitVec 16).toNat % 16 = 1 ∧ (0xFF01 : BitVec 16).toNat / 16 % 16 = 0) ∧
      ((0x4002 : BitVec 16).toNat % 16 = 2 ∧ (0x4002 : BitVec 16).toNat / 16 % 16 = 0) ∧
      ((0x0003 : BitVec 16).toNat % 16 = 3 ∧ (0x0003 : BitVec 16).toNat / 16 % 16 = 0)) ∧
    ([(4 : BitVec 16), 5, 6, 7, 8, 9, 10, 11].all (fun w =>
      w.toNat % 16 == w.toNat && w.toNat / 16 % 16 == 0 && w.toNat / 256 == 0)) = true ∧
    (0xFF00 : BitVec 16).toNat % 16 = 0 ∧ 12 ≤ (0x000C : BitVec 16).toNat % 16 ∧
      (0x0011 : BitVec 16).toNat / 16 % 16 ≠ 0 ∧
      4 ≤ (0x0104 : BitVec 16).toNat % 16 ∧ (0x0104 : BitVec 16).toNat / 256 ≠ 0 := by decide

/-- Line 1 has a valid result and line 2 has none; a line that takes the one in operand A or B, the other in
A or B, and lines 0 and 3, which no answer stands for. -/
theorem witness_AssembledLineIsItsCommand :
    (Instr.testbit 255).wellFormed ∧ substituteOperand [ok5] (.resultOf 1) = some 5 ∧
    assembleLine [ok5] ⟨.testbit 255, .resultOf 1, .literal 0⟩ = some ⟨0xFF02, 5, 0⟩ ∧
    assembleLine [ok5] ⟨.pte2pa, .literal 1, .resultOf 1⟩ = some ⟨0x0008, 1, 5⟩ ∧
    [ok5, ⟨1, 0, none⟩][0]? = some ok5 ∧ ok5.result = some 5 ∧
    [ok5, ⟨1, 0, none⟩][1]? = some ⟨1, 0, none⟩ ∧
    (ListingLine.mk (.testbit 0) (.resultOf 2) (.literal 0)).a = .resultOf (1 + 1) ∧
    (ListingLine.mk .pte2pa (.literal 1) (.resultOf 2)).b = .resultOf (1 + 1) ∧
    (ListingLine.mk .pte2pa (.literal 1) (.resultOf 0)).b = .resultOf 0 ∧
    (ListingLine.mk .idx1 (.resultOf 3) (.literal 0)).a = .resultOf 3 ∧
    [ok5, ⟨1, 0, none⟩].length < 3 := by decide

/-- A state with no input left, and one with an input. -/
theorem witness_EveryStepCompletes :
    (withTable .clock clockMixed).inputs = [] ∧
      (next1 (withTable .clock clockMixed) (cmd 9 9 0)).inputs ≠ [] := by decide

theorem witness_StepPerformsPresentedCommand :
    (next1 (walkState .clock) (cmd 0x000B 7 0x1000)).inputs = [cmd 0x000B 7 0x1000] ∧
      decode 0x000B = .ok .walk := by decide

theorem witness_IllegalCommandAnswered :
    (next1 (walkState .clock) (cmd 0x0109 7 0)).inputs = [cmd 0x0109 7 0] ∧
      decode 0x0109 = .error .indexField := by decide

theorem witness_IllegalWordBeforeBadIndex :
    (next1 (walkState .clock) (cmd 0x4011 7 0)).inputs = [cmd 0x4011 7 0] ∧
      (0x4011 : BitVec 16).toNat / 16 % 16 ≠ 0 := by decide

theorem witness_ResetEmptiesTheBlock :
    (next1 (withTable .fifo fifoFull) (.reset .clock)).inputs = [.reset .clock] := by decide

/-- A word for each arm: illegal, bit command, index command, PTE2PA, MAP, ACCESS, WALK. -/
theorem witness_OneResponsePerCommand :
    decode 0x0000 = .error .reservedOpcode ∧ decode 0x4001 = .ok (.setbit 64) ∧
      decode 0x3F02 = .ok (.testbit 63) ∧ decode 0xFF03 = .ok (.clrbit 255) ∧ decode 4 = .ok .idx1 ∧
      decode 5 = .ok .idx2 ∧ decode 6 = .ok .idx3 ∧ decode 7 = .ok .idx4 ∧ decode 8 = .ok .pte2pa ∧
      decode 9 = .ok .map ∧ decode 10 = .ok .access ∧ decode 11 = .ok .walk ∧
      (next1 (walkState .clock) (cmd 0x4001 7 0)).inputs = [cmd 0x4001 7 0] := by decide

/-- The four conditions: an illegal word, a bad index, an absent PTE, an absent table entry. -/
theorem witness_ConditionsChangeNothing :
    [(0x000C, (0 : Word)), (0x4001, 0), (0x0008, 6), (0x000B, 0)].all (fun (c : BitVec 16 × Word) =>
      match after (step (next1 (withTable .clock clockMixed) (cmd c.1 c.2 0))) with
      | some t => match t.responses with
        | [r] => r.status != 0
        | _ => false
      | none => false) = true := by decide

/-- A sound and an unsound command, a reset and a table write: each input has its step. -/
theorem witness_SoundInputsKeepRunSafe :
    [cmd 0x3F01 0 0, cmd 0x4001 0 0, cmd 0x000C 0 0, .reset .fifo, .tableWrite 1 2 3].all (fun i =>
      (next1 (walkState .fifo) i).inputs == [i] &&
        (after (step (next1 (walkState .fifo) i))).isSome) = true ∧
    [cmd 0x3F01 0 0, cmd 0x4001 0 0, cmd 0x000C 0 0, .reset .fifo, .tableWrite 1 2 3].map Input.sound =
      [true, false, false, true, true] := by decide

theorem witness_PolicyChangesOnlyAtReset :
    (after (step (next1 (walkState .fifo) (.reset .clock)))).isSome ∧
      (after (step (next1 (walkState .fifo) (cmd 9 1 0)))).isSome ∧
      (after (step (walkState .fifo))).isSome := by decide

theorem witness_CommandsWriteNoMemory :
    (after (step (next1 (walkState .fifo) (cmd 0x000B 0x123456789ABC 0x1000)))).isSome ∧
      readByte (walkState .fifo).store 0x1121 = 0x20 := by decide

/-- The first and the last entry of a table; a store that is not empty. -/
theorem witness_TableWriteChangesOneEntry :
    (walkState .fifo).store.wf ∧
      (next1 (walkState .fifo) (.tableWrite 0xFFFFFFFFFF 511 0x8000000000000001)).inputs =
        [.tableWrite 0xFFFFFFFFFF 511 0x8000000000000001] ∧
      (next1 (walkState .fifo) (.tableWrite 0 0 0)).inputs = [.tableWrite 0 0 0] := by decide

theorem witness_OtherCommandsAreStateless :
    Instr.walk ≠ .map ∧ Instr.walk ≠ .access ∧ Instr.pte2pa ≠ .walk ∧
      (withTable .clock clockMixed).port = (withTable .fifo fifoFull).port ∧
      (walkState .clock).store = (walkState .fifo).store := by decide

theorem witness_IgnoredOperandHasNoEffect :
    Instr.map ≠ .pte2pa ∧ Instr.map ≠ .walk ∧ (Instr.setbit 64) ≠ .pte2pa := by decide

/-- The boundary indices of the three bit commands, for SetbitForcesOneBit, TestbitReportsOneBit and
ClrbitForcesOneBitToZero: legal, illegal, encodable. -/
theorem witness_bit_indices : (0 < 64 ∧ 63 < 64) ∧ (64 ≤ 64 ∧ 64 ≤ 255) ∧ (255 < 256) := by decide

theorem witness_BadBitIndexAnswered :
    (next1 (walkState .fifo) (cmd 0x4003 7 0)).inputs = [cmd 0x4003 7 0] ∧
      1 ≤ (0x4003 : BitVec 16).toNat % 256 ∧ (0x4003 : BitVec 16).toNat % 256 ≤ 3 ∧
      64 ≤ (0x4003 : BitVec 16).toNat / 256 := by decide

theorem witness_BitCommandsRoundTrip :
    (0 < 64 ∧ 63 < 64 ∧ (63 : Nat) ≠ 0) ∧
      answerValue (.setbit 63) 6 0 (walkState .fifo) = some 0x8000000000000006 ∧
      answerValue (.clrbit 63) 6 0 (walkState .fifo) = some 6 := by decide

/-- Two addresses that differ above bit 47 only (S1 of 95_test_vectors). -/
theorem witness_IndicesPartitionTheAddress :
    (0xDEADBEEFCAFEF00D : Word) &&& 0xFFF = (0x0000BEEFCAFEF00D : Word) &&& 0xFFF ∧
      [Instr.idx1, .idx2, .idx3, .idx4].all (fun i =>
        answerValue i 0xDEADBEEFCAFEF00D 0 (walkState .fifo) ==
          answerValue i 0x0000BEEFCAFEF00D 0 (walkState .fifo)) = true := by decide

theorem witness_Pte2paRebuildsAddressOrFaults :
    (onPort (walkState .fifo) 1 0).port.a.getLsbD 0 = true ∧
      (onPort (walkState .fifo) 0xFFFFFFFFFFFFFFFE 0).port.a.getLsbD 0 = false := by decide

/-- The store of 95_test_vectors 2.8 with other ignored bits in the level-1 entry and in the PTE: bits 63:52,
11:3, USERSUPERVISOR and READWRITE. -/
def storeIgnored : Memory :=
  writeWord (writeWord store28 (entryAddress ((1 : BitVec 40) ++ 0#12) 0x024) 0xFFF0000000002FF9)
    (entryAddress ((4 : BitVec 40) ++ 0#12) 0x189) 0x8000000012345FF9

/-- A state with that store. -/
def ignoredState : State := { State.resetWith .clock with store := storeIgnored }

/-- The two stores are different, and every entry of the one agrees with the other's on PRESENT and on bits
51:12. -/
theorem witness_IgnoredBitsHaveNoEffect_stores :
    (walkState .fifo).store ≠ ignoredState.store ∧
      ∀ (g : BitVec 40) (j : BitVec 9),
        (tblRead (walkState .fifo).store ⟨g ++ 0#12, j⟩).getLsbD 0 =
            (tblRead ignoredState.store ⟨g ++ 0#12, j⟩).getLsbD 0 ∧
          (tblRead (walkState .fifo).store ⟨g ++ 0#12, j⟩).extractLsb' 12 40 =
            (tblRead ignoredState.store ⟨g ++ 0#12, j⟩).extractLsb' 12 40 := by
  have wf28 : store28.wf := by decide
  refine ⟨by decide, fun g j => ?_⟩
  show (tblRead store28 _).getLsbD 0 = (tblRead storeIgnored _).getLsbD 0 ∧
    (tblRead store28 _).extractLsb' 12 40 = (tblRead storeIgnored _).extractLsb' 12 40
  rw [storeIgnored, tblRead_writeWord (writeWord_wf (entryAddress_bound _ _) wf28),
    tblRead_writeWord wf28]
  split
  · rename_i h
    obtain ⟨rfl, rfl⟩ := h
    decide
  · split
    · rename_i h
      obtain ⟨rfl, rfl⟩ := h
      decide
    · exact ⟨rfl, rfl⟩

/-- Operands that differ in the ignored bits only; for WALK, in the two states above, addresses that differ
above bit 47 and root handles that differ outside bits 51:12. -/
theorem witness_IgnoredBitsHaveNoEffect :
    ((0xFFF0000000001001 : Word).getLsbD 0 = (0x1FFF : Word).getLsbD 0 ∧
      (0xFFF0000000001001 : Word).extractLsb' 12 40 = (0x1FFF : Word).extractLsb' 12 40 ∧
      (0xFFFFFFFFFFFFFABC : Word).extractLsb' 0 12 = (0xABC : Word).extractLsb' 0 12) ∧
    ((onPort (walkState .fifo) 0xFFFF123456789ABC 0x1000).port.a.extractLsb' 0 48 =
        (onPort ignoredState 0x123456789ABC 0xFFF0000000001FFF).port.a.extractLsb' 0 48 ∧
      (onPort (walkState .fifo) 0xFFFF123456789ABC 0x1000).port.b.extractLsb' 12 40 =
        (onPort ignoredState 0x123456789ABC 0xFFF0000000001FFF).port.b.extractLsb' 12 40) := by decide

/-- A missing entry at each of the four levels, and none missing (95_test_vectors 2.8, and a level-2
miss: address bits 38:30 raised by one in its first row). -/
theorem witness_WalkReadsFourLevels :
    [((0 : Word), (0x1000 : Word)), (0x0000123496789ABC, 0x1000), (0x0000123456989ABC, 0x1000),
      (0x000012345678AABC, 0x1000), (0x0000123456789ABC, 0x1000)].map (fun p =>
        (walked p.1 p.2).map (fun q => (q.1.length, q.2.map (fun r => (r.status, r.info))))) =
      [some (1, [(1, 1)]), some (2, [(1, 2)]), some (3, [(1, 3)]), some (4, [(1, 4)]),
        some (4, [(0, 0)])] := by decide

/-- P4 of 95_test_vectors, with MAP in between. -/
def retryState : State :=
  { walkState .fifo with inputs := [cmd 0x000B 0x000012345678AABC 0x1000, cmd 0x0009 0x000012345678AABC 0,
      .tableWrite 4 0x18A 0x0BADF007, cmd 0x000B 0x000012345678AABC 0x1000] }

theorem witness_RetrySucceedsOnceEntryIsPresent :
    retryState.store.wf ∧
    answer .walk 0x000012345678AABC 0x1000 retryState = some ⟨1, 4, none⟩ ∧
    (walkLevels retryState.store 0x000012345678AABC walkOrder 0x1000).reads.getLast? =
      some ⟨(4 : BitVec 40) ++ 0#12, 0x18A⟩ ∧
    (0x0BADF007 : Word).getLsbD 0 = true ∧
    retryState.inputs = [.command ⟨0x000B, 0x000012345678AABC, 0x1000⟩] ++
      [.command ⟨0x0009, 0x000012345678AABC, 0⟩] ++
      [.tableWrite 4 0x18A 0x0BADF007, .command ⟨0x000B, 0x000012345678AABC, 0x1000⟩] := by decide

theorem witness_SentinelIsIgnored :
    (onPort (withTable .clock clockFull) 0 7).port.a = 0 ∧
      (onPort (withTable .fifo fifoFull) 0 7).port.a = 0 := by decide

/-- A hit in slot 0 and in slot 7. -/
theorem witness_FifoHitChangesNothing :
    (onPort (withTable .fifo fifoFull) 8 0).policy = .fifo ∧
      (onPort (withTable .fifo fifoFull) 8 0).port.a ≠ 0 ∧ (fifoFull.slot 7).va = 8 ∧
      (fifoFull.slot 0).va = 1 := by decide

theorem witness_ClockHitSetsOneReferencedBit :
    (onPort (withTable .clock clockMixed) 0x8000 0).policy = .clock ∧
      (onPort (withTable .clock clockMixed) 0x8000 0).port.a ≠ 0 ∧ (clockMixed.slot 7).va = 0x8000 ∧
      ∀ j : Fin 8, j < 7 → (clockMixed.slot j).va ≠ 0x8000 := by decide

/-- A miss on the empty table and on one with one slot left, under each policy. -/
theorem witness_InsertionFillsNextSlot :
    [withTable .fifo FrameTable.empty, withTable .clock FrameTable.empty,
      withTable .fifo (almostFull noRefs), withTable .clock (almostFull #v[true, true, true, true, true,
        true, true, false])].all (fun s =>
      (onPort s 9 0).port.a != 0 && allSlots.all (fun j => (s.table.slot j).va != 9) &&
        !s.table.isFull) = true := by decide

theorem witness_FifoReplacesAtHand :
    (onPort (withTable .fifo fifoFull) 9 0).policy = .fifo ∧
      (onPort (withTable .fifo fifoFull) 9 0).port.a ≠ 0 ∧
      (∀ j : Fin 8, (fifoFull.slot j).va ≠ 9) ∧ fifoFull.isFull = true := by decide

/-- Scans that pass no slot, two slots and all eight. -/
theorem witness_ClockReplacesFirstUnreferenced :
    [tableOf #v[1, 2, 3, 4, 5, 6, 7, 8] noRefs 5 5 true, clockMixed, clockFull].all (fun t =>
      (onPort (withTable .clock t) 9 0).policy == .clock && (onPort (withTable .clock t) 9 0).port.a != 0 &&
        allSlots.all (fun j => (t.slot j).va != 9) && t.isFull) = true := by decide

theorem witness_FullSweepEvictsOriginalHand :
    (onPort (withTable .clock clockFull) 9 0).policy = .clock ∧
      (onPort (withTable .clock clockFull) 9 0).port.a ≠ 0 ∧
      (∀ j : Fin 8, (clockFull.slot j).va ≠ 9) ∧ clockFull.isFull = true ∧
      ∀ j : Fin 8, (clockFull.slot j).ref = true := by decide

/-- The four cases: the sentinel, a hit, a miss with room, a miss on the full table. -/
theorem witness_OutcomeCodeSaysTheCase :
    (onPort (withTable .clock clockFull) 0 0).port.a = 0 ∧
      (∃ j : Fin 8, (clockFull.slot j).va = 8) ∧
      ((∀ j : Fin 8, (FrameTable.empty.slot j).va ≠ 9) ∧ FrameTable.empty.isFull = false) ∧
      (∀ j : Fin 8, (clockFull.slot j).va ≠ 9) ∧ clockFull.isFull = true := by decide

theorem witness_EventsOfOneCommand :
    decode 0x0009 = .ok .map ∧ decode 0x000A = .ok .access ∧ decode 0x0008 = .ok .pte2pa ∧
      decode 0x000C = .error .reservedOpcode ∧
      (next1 (withTable .clock clockFull) (cmd 9 9 0)).inputs = [cmd 9 9 0] := by decide

/-- V-FT-3: the low twelve bits differ, and bits 63:48 differ. -/
theorem witness_KeysAreWholeAddresses :
    (0x1000 : Word) ≠ 0 ∧ (0x1001 : Word) ≠ 0 ∧ (0x1000 : Word) ≠ 0x1001 ∧
      (0x1000 : Word) ≠ 0xFFFF000000001000 ∧
      (∀ j : Fin 8, (fifoFull.slot j).va ≠ 0x1001) ∧
      ∀ j : Fin 8, (fifoFull.slot j).va ≠ 0xFFFF000000001000 := by decide

/-- Tables that meet the invariants: empty, one slot left, full, full with a hand in the middle. -/
theorem witness_FrameTableInvariantKept :
    FrameTable.empty.Inv ∧ (almostFull noRefs).Inv ∧ fifoFull.Inv ∧ clockMixed.Inv ∧
      (after (step (next1 (withTable .clock clockMixed) (cmd 9 9 0)))).isSome :=
  ⟨by decide, by decide, by decide, by decide, by decide⟩

/-- A miss on the full table, a miss with room, a hit. -/
theorem witness_MapLeavesExactlyOneCopy :
    (withTable .clock clockMixed).table.Inv ∧ (withTable .fifo (almostFull noRefs)).table.Inv ∧
      (onPort (withTable .clock clockMixed) 9 0).port.a ≠ 0 ∧
      (onPort (withTable .clock clockMixed) 0x2000 0).port.a ≠ 0 := by decide

theorem witness_FullTableStaysFull :
    (after (step (next1 (withTable .clock clockFull) (cmd 9 9 0)))).isSome ∧
      (∀ p, Input.reset p ≠ cmd 9 9 0) ∧ clockFull.isFull = true :=
  ⟨by decide, fun _ => by simp [cmd], by decide⟩

theorem witness_OccupancyFollowsCursors :
    (FrameTable.empty.Inv ∧ FrameTable.empty.isFull = false) ∧
      ((almostFull noRefs).Inv ∧ (almostFull noRefs).isFull = false) ∧
      clockMixed.Inv ∧ clockMixed.isFull = true :=
  ⟨⟨by decide, by decide⟩, ⟨by decide, by decide⟩, by decide, by decide⟩

/-- The same table with other `ref` bits, and a state that keeps them 0. -/
theorem witness_FifoLeavesReferencedBitsAlone :
    (withTable .fifo fifoFull).policy = .fifo ∧
      (∀ j : Fin 8, (clockFull.slot j).va = ((withTable .fifo fifoFull).table.slot j).va) ∧
      clockFull.first = fifoFull.first ∧ clockFull.last = fifoFull.last ∧
      clockFull.isFull = fifoFull.isFull ∧ (withTable .fifo fifoFull).fifoRefsClear := by decide

theorem witness_LoadedPageCountsAsReferenced :
    (onPort (withTable .clock clockMixed) 9 0).policy = .clock ∧
      (onPort (withTable .clock clockMixed) 9 0).port.a ≠ 0 ∧
      (∀ j : Fin 8, (clockMixed.slot j).va ≠ 9) ∧ ∀ j : Fin 8, (FrameTable.empty.slot j).va ≠ 9 := by
  decide

/-- The trace of V-CLK-0. -/
def filledClock : State := { withTable .clock clockFull with
    trace := [.load 1, .load 2, .load 3, .load 4, .load 5, .load 6, .load 7, .load 8] }

theorem witness_BeforeFirstEvictionKept :
    filledClock.beforeFirstEviction ∧ evictsOf filledClock.trace = [] ∧
      (after (step (next1 filledClock (cmd 9 9 0)))).isSome := by decide

theorem witness_FirstClockEvictionTakesFirstLoaded :
    filledClock.table.Inv ∧ filledClock.beforeFirstEviction ∧ filledClock.policy = .clock ∧
      evictsOf filledClock.trace = [] ∧ filledClock.table.isFull = true ∧
      (onPort filledClock 9 0).port.a ≠ 0 ∧
      ∀ j : Fin 8, (filledClock.table.slot j).va ≠ 9 := by decide

/-- The end of V-FIFO-2. -/
def afterFifo2 : State :=
  { withTable .fifo (tableOf #v[9, 2, 3, 4, 5, 6, 7, 8] noRefs 1 1 true) with
    trace := [.load 1, .load 2, .load 3, .load 4, .load 5, .load 6, .load 7, .load 8, .evict 1, .load 9] }

theorem witness_FifoOrderKept :
    afterFifo2.table.Inv ∧ afterFifo2.policy = .fifo ∧ afterFifo2.fifoOrder ∧
      (after (step (next1 afterFifo2 (cmd 10 1 0)))).isSome := by decide

/-- One load and its response. -/
def afterFT2 : State :=
  { withTable .fifo (tableOf #v[5, 0, 0, 0, 0, 0, 0, 0] noRefs 0 1 false) with
    trace := [.load 5], responses := [⟨0, 2, none⟩] }

theorem witness_EventCountsKept :
    afterFT2.eventsCounted ∧ (after (step (next1 afterFT2 (cmd 9 9 0)))).isSome := by decide

theorem witness_StoreStaysCanonical :
    (walkState .fifo).store.wf ∧
      (after (step (next1 (walkState .fifo) (.tableWrite 4 0x18A 0)))).isSome := by decide

/-- All the invariants hold together in a state with a resident page, an event, a response and a store. -/
theorem witness_RunsKeepEveryInvariant :
    store28.wf ∧ { afterFT2 with store := store28 }.Inv :=
  ⟨by decide, by decide, by decide, by decide, by decide, by decide, by decide, by decide⟩

/-- The invariants together, after the steps that follow V-FIFO-2: a full table under FIFO with evictions, the
responses of its commands, and a step to take. -/
def afterFifo2Answered : State :=
  { afterFifo2 with
    responses := [⟨0, 2, none⟩, ⟨0, 2, none⟩, ⟨0, 2, none⟩, ⟨0, 2, none⟩, ⟨0, 2, none⟩, ⟨0, 2, none⟩,
      ⟨0, 2, none⟩, ⟨0, 2, none⟩, ⟨0, 3, none⟩]
    store := store28 }

theorem witness_EveryInvariantKept :
    afterFifo2Answered.Inv ∧ (after (step (next1 afterFifo2Answered (cmd 10 1 0)))).isSome :=
  ⟨⟨by decide, by decide, by decide, by decide, by decide, by decide, by decide⟩, by decide⟩

theorem witness_EveryInvariantAtReset : store28.wf ∧ Memory.wf [] := by decide

/-- Nine loads of V-FIFO-2 as inputs: no reset among them, and the run evicts address 1. -/
theorem witness_FifoEvictsInLoadOrder :
    store28.wf ∧
    ([1, 2, 3, 4, 5, 6, 7, 8, 9].map (fun a => cmd 9 a 0)).all
      (fun i => match i with | .reset _ => false | _ => true) = true ∧
    ((after (Host.Core.run Sys2Proof.core 9 { State.resetWith .fifo with
      store := store28, inputs := [1, 2, 3, 4, 5, 6, 7, 8, 9].map (fun a => cmd 9 a 0) })).map
        (fun t => evictsOf t.trace)) = some [1] := by decide

end Sys2Proof.Tests
end

section

namespace Sys2Proof.Machine

/-- The step of a presented command runs the port it is driven on (00_scope R12). -/
theorem step_of_command {s : State} {c : Command} {rest : List Input}
    (hin : s.inputs = .command c :: rest) : step s = runPort (present c rest s) := by
  simp only [step, hin]

/-- The port's word alone decides which command runs (30_encoding R81). -/
theorem runPort_of_decode_ok {s : State} {i : Instr} (hdec : decode s.port.cmd = .ok i) :
    runPort s = exec i s := by
  simp only [runPort, hdec]

/-- Settles O8: the step drives the command on the port, and the port's word decodes to `i`. -/
theorem stepPerformsPresentedCommand : Obligations.StepPerformsPresentedCommand := by
  intro s c rest i hin hdec
  have hport : decode (present c rest s).port.cmd = .ok i := by rw [present_port, hdec]
  calc step s = runPort (present c rest s) := step_of_command hin
    _ = exec i (present c rest s) := runPort_of_decode_ok hport

end Sys2Proof.Machine
end

section
/-! The commands other than MAP and ACCESS: each answers one response that depends on the port (and for
WALK the table store) alone, and changes nothing else (10_state R31). -/

namespace Sys2Proof.Machine

/-- A response the port can carry that reports neither a miss nor an eviction: what every command but
MAP and ACCESS answers (30_encoding R74 to R76). -/
structure Response.Quiet (r : Response) : Prop where
  legal : r.legal = true
  notMiss : r.isMiss = false
  notEviction : r.isEviction = false

/-- A valid result is a quiet response. -/
theorem Response.Quiet.of_value (v : Word) : Response.Quiet ⟨statusCode .ok, 0, some v⟩ :=
  ⟨rfl, rfl, rfl⟩

/-- A reported condition is a quiet response. -/
theorem Response.Quiet.of_condition {st : Status} {info : BitVec 3} (hst : st ≠ .ok)
    (hinfo : info.toNat ≤ 4) : Response.Quiet ⟨statusCode st, info, none⟩ := by
  cases st with
  | ok => exact absurd rfl hst
  | pageFault => exact ⟨by simp [Response.legal, hinfo, statusCode], rfl, rfl⟩
  | illegalCmd => exact ⟨by simp [Response.legal, hinfo, statusCode], rfl, rfl⟩
  | badBitpos => exact ⟨by simp [Response.legal, hinfo, statusCode], rfl, rfl⟩

/-- The state after a command that makes the requests `rs`, answers `r` and does nothing else. -/
def answerWith (rs : List TblReq) (r : Response) (s : State) : State :=
  { s with reads := s.reads ++ rs, responses := s.responses ++ [r] }

/-- A response without a request. -/
theorem respond_eq_answerWith (st : Status) (n : BitVec 3) (v : Option Word) (s : State) :
    respond st n v s = answerWith [] ⟨statusCode st, n, v⟩ s := by
  simp [respond, answerWith]

/-- A response after the requests of a walk. -/
theorem respond_recordReads (rs : List TblReq) (st : Status) (n : BitVec 3) (v : Option Word)
    (s : State) : respond st n v (recordReads rs s) = answerWith rs ⟨statusCode st, n, v⟩ s := rfl

/-- A bit command answers by its index and operand `A` (40_flag_decoder R93). -/
theorem bitCommand_answers (n : Nat) (f : Word → Word) (c : Command) :
    ∃ r : Response, r.Quiet ∧ ∀ s : State, s.port = c → bitCommand n f s = answerWith [] r s := by
  rcases Nat.lt_or_ge n 64 with hn | hn
  · refine ⟨_, .of_value (f c.a), fun s hs => ?_⟩
    rw [bitCommand_legal f s hn, hs, respond_eq_answerWith]
  · refine ⟨_, .of_condition (st := .badBitpos) (info := 0) (by decide) (by decide), fun s _ => ?_⟩
    rw [bitCommand_illegal f s hn, respond_eq_answerWith]

/-- An index command answers by operand `A` (41_address_translator R105). -/
theorem respondIndex_answers (k : Level) (c : Command) :
    ∃ r : Response, r.Quiet ∧ ∀ s : State, s.port = c → respondIndex k s = answerWith [] r s := by
  refine ⟨_, .of_value (zext64 (indexLevel k c.a)), fun s hs => ?_⟩
  rw [respondIndex, respondValue_eq, hs, respond_eq_answerWith]

/-- PTE2PA answers by its two operands (41_address_translator R107, R108). -/
theorem respondPhysical_answers (c : Command) :
    ∃ r : Response, r.Quiet ∧ ∀ s : State, s.port = c →
      respondPhysical s.port.a s.port.b s = answerWith [] r s := by
  cases hp : isPresent c.a with
  | true =>
    refine ⟨_, .of_value (physicalAddress c.a c.b), fun s hs => ?_⟩
    rw [hs, respondPhysical_present _ _ hp, respond_eq_answerWith]
  | false =>
    refine ⟨_, .of_condition (st := .pageFault) (info := 0) (by decide) (by decide), fun s hs => ?_⟩
    rw [hs, respondPhysical_absent _ _ hp, respond_eq_answerWith]

/-- The level a page fault reports fits the `info` field (45_walker R167). -/
theorem levelNumber_le_four (k : Level) : (BitVec.ofNat 3 (levelNumber k)).toNat ≤ 4 := by
  cases k <;> decide

/-- WALK answers by its two operands and the table store (45_walker R166, R171). -/
theorem walkCommand_answers (c : Command) (m : Memory) :
    ∃ (rs : List TblReq) (r : Response), r.Quiet ∧ ∀ s : State, s.port = c → s.store = m →
      walkCommand s = answerWith rs r s := by
  refine ⟨(walkLevels m c.a walkOrder c.b).reads, ?_⟩
  cases hw : (walkLevels m c.a walkOrder c.b).ended with
  | ok pte =>
    refine ⟨_, .of_value (physicalAddress pte c.a), fun s hs hm => ?_⟩
    simp only [walkCommand, hs, hm, hw, respondWalk, respondValue_eq, respond_recordReads]
  | error k =>
    refine ⟨_, .of_condition (st := .pageFault) (by decide) (levelNumber_le_four k),
      fun s hs hm => ?_⟩
    simp only [walkCommand, hs, hm, hw, respondWalk, raisePageFault_eq, respond_recordReads]

/-- What command `i` does in every state with `c` on the port, for WALK with the table store `m`:
the same requests and the same quiet response, and nothing else. -/
def AnswersAlone (i : Instr) (c : Command) (m : Memory) : Prop :=
  ∃ (rs : List TblReq) (r : Response), r.Quiet ∧ (i ≠ .walk → rs = []) ∧
    ∀ s : State, s.port = c → (i = .walk → s.store = m) → exec i s = .next (answerWith rs r s)

/-- A command that makes no request. -/
theorem AnswersAlone.of_no_reads {i : Instr} {c : Command} {m : Memory} {f : State → State}
    (hf : ∀ s, exec i s = .next (f s))
    (ha : ∃ r : Response, r.Quiet ∧ ∀ s : State, s.port = c → f s = answerWith [] r s) :
    AnswersAlone i c m := by
  obtain ⟨r, hr, ha⟩ := ha
  exact ⟨[], r, hr, fun _ => rfl, fun s hs _ => by rw [hf, ha s hs]⟩

/-- Every command but MAP and ACCESS answers alone (10_state R31). -/
theorem exec_answersAlone {i : Instr} (hmap : i ≠ .map) (haccess : i ≠ .access) (c : Command)
    (m : Memory) : AnswersAlone i c m := by
  cases i with
  | setbit n => exact .of_no_reads (fun _ => rfl) (bitCommand_answers n _ c)
  | testbit n => exact .of_no_reads (fun _ => rfl) (bitCommand_answers n _ c)
  | clrbit n => exact .of_no_reads (fun _ => rfl) (bitCommand_answers n _ c)
  | idx1 => exact .of_no_reads (fun _ => rfl) (respondIndex_answers .one c)
  | idx2 => exact .of_no_reads (fun _ => rfl) (respondIndex_answers .two c)
  | idx3 => exact .of_no_reads (fun _ => rfl) (respondIndex_answers .three c)
  | idx4 => exact .of_no_reads (fun _ => rfl) (respondIndex_answers .four c)
  | pte2pa => exact .of_no_reads (fun _ => rfl) (respondPhysical_answers c)
  | map => exact absurd rfl hmap
  | access => exact absurd rfl haccess
  | walk =>
    obtain ⟨rs, r, hr, ha⟩ := walkCommand_answers c m
    exact ⟨rs, r, hr, fun h => absurd rfl h, fun s hs hm => congrArg _ (ha s hs (hm rfl))⟩

/-- Settles O20: the requests and the response are those of the port and the store, whatever the rest
of the state is. -/
theorem otherCommandsAreStateless : Obligations.OtherCommandsAreStateless := by
  intro i hmap haccess s
  obtain ⟨rs, r, -, hrs, hexec⟩ := exec_answersAlone hmap haccess s.port s.store
  exact ⟨rs, r, hexec s rfl fun _ => rfl, hrs, hexec⟩

end Sys2Proof.Machine
end

section
/-! MAP and ACCESS: one function of policy, address and table, with four cases
(42_frame_table R130, R132). -/

namespace Sys2Proof.Machine

/-- What a load writes into the `ref` bit: nothing under FIFO, 1 under CLOCK (43_fifo R143, 44_clock
R155). -/
def freshRef : Policy → Option Bool
  | .fifo => none
  | .clock => some true

/-- The table after a hit in slot `i` (43_fifo R140, 44_clock R152). -/
def afterHit : Policy → Fin 8 → FrameTable → FrameTable
  | .fifo, _, t => t
  | .clock, i, t => touchSlot i t

/-- The table when a victim has been chosen: CLOCK scans for it, FIFO takes the hand as it stands
(43_fifo R140, 44_clock R153). -/
def afterScan : Policy → FrameTable → FrameTable
  | .fifo, t => t
  | .clock, t => clockScan scanFuel t

/-- The four cases of MAP and ACCESS with what each answers (42_frame_table R130). -/
inductive MapsTo (p : Policy) (va : Word) (t : FrameTable) : MapAnswer → Prop
  | ignored (hva : va = 0) : MapsTo p va t (answerIgnored t)
  | hit (i : Fin 8) (hva : va ≠ 0) (hi : (t.slot i).va = va) :
      MapsTo p va t (answerHit (afterHit p i t))
  | loaded (hva : va ≠ 0) (hmiss : ∀ j : Fin 8, (t.slot j).va ≠ va) (hroom : t.isFull = false) :
      MapsTo p va t (answerLoaded va (freshRef p) t)
  | replaced (hva : va ≠ 0) (hmiss : ∀ j : Fin 8, (t.slot j).va ≠ va) (hfull : t.isFull = true) :
      MapsTo p va t (answerReplaced va (freshRef p) (afterScan p t))

/-- The cases as the two policies' own laws state them. -/
theorem MapsTo.of_cases {p : Policy} {va : Word} {t : FrameTable} {m : MapAnswer}
    (h : (va = 0 ∧ m = answerIgnored t) ∨
      (va ≠ 0 ∧ ∃ i, find va t = some i ∧ m = answerHit (afterHit p i t)) ∨
      (va ≠ 0 ∧ find va t = none ∧ t.isFull = false ∧ m = answerLoaded va (freshRef p) t) ∨
      (va ≠ 0 ∧ find va t = none ∧ t.isFull = true ∧
        m = answerReplaced va (freshRef p) (afterScan p t))) : MapsTo p va t m := by
  obtain ⟨hva, rfl⟩ | ⟨hva, i, hi, rfl⟩ | ⟨hva, hn, hm, rfl⟩ | ⟨hva, hn, hm, rfl⟩ := h
  · exact .ignored hva
  · exact .hit i hva (find_some hi)
  · exact .loaded hva (find_none_iff.1 hn) hm
  · exact .replaced hva (find_none_iff.1 hn) hm

/-- MAP takes one of the four cases, under either policy. -/
theorem mapByPolicy_mapsTo (p : Policy) (va : Word) (t : FrameTable) :
    MapsTo p va t (mapByPolicy p va t) := by
  cases p with
  | fifo => exact .of_cases (mapFifo_cases va t)
  | clock => exact .of_cases (mapClock_cases va t)

/-- ACCESS is MAP under FIFO: a hit answers the same, a miss is MAP's (43_fifo R141). -/
theorem accessFifo_eq_mapFifo (va : Word) (t : FrameTable) : accessFifo va t = mapFifo va t := by
  cases hf : find va t with
  | some i => simp [accessFifo, mapFifo, hf]
  | none => simp +contextual [accessFifo, mapFifo, hf]

/-- ACCESS is MAP under CLOCK: a hit answers the same, a miss is MAP's (44_clock R151). -/
theorem accessClock_eq_mapClock (va : Word) (t : FrameTable) :
    accessClock va t = mapClock va t := by
  cases hf : find va t with
  | some i => simp [accessClock, mapClock, hf]
  | none => simp +contextual [accessClock, mapClock, hf]

/-- ACCESS is MAP, under either policy (42_frame_table R132). -/
theorem accessByPolicy_eq_mapByPolicy (p : Policy) (va : Word) (t : FrameTable) :
    accessByPolicy p va t = mapByPolicy p va t := by
  cases p with
  | fifo => exact accessFifo_eq_mapFifo va t
  | clock => exact accessClock_eq_mapClock va t

/-- MAP and ACCESS commit what the policy makes of operand `A` (42_frame_table R122, R123). -/
theorem exec_mapOrAccess {i : Instr} (hi : i = .map ∨ i = .access) (s : State) :
    exec i s = .next (commitAnswer (mapByPolicy s.policy s.port.a s.table) s) := by
  obtain rfl | rfl := hi
  · rfl
  · rw [← accessByPolicy_eq_mapByPolicy]
    rfl

end Sys2Proof.Machine
end

section
/-! What one step can do, in the terms the invariants speak of (70_reset R222). -/

namespace Sys2Proof.Machine

/-- A step that leaves the frame table, the policy and the trace alone: the idle step, a table write, and
every command but MAP and ACCESS. It answers quiet responses only. -/
structure QuietStep (s t : State) : Prop where
  notReset : ∀ strap rest, s.inputs ≠ .reset strap :: rest
  table : t.table = s.table
  policy : t.policy = s.policy
  trace : t.trace = s.trace
  responses : ∃ rs : List Response, t.responses = s.responses ++ rs ∧ ∀ r ∈ rs, r.Quiet
  storeWf : s.store.wf → t.store.wf

/-- The three kinds of step: a reset, MAP or ACCESS, and all others. -/
inductive StepKind (s : State) : State → Prop
  | reset (strap : Policy) (rest : List Input) (hin : s.inputs = .reset strap :: rest) :
      StepKind s (applyReset strap rest s)
  | mapped (c : Command) (rest : List Input) (m : MapAnswer) (hin : s.inputs = .command c :: rest)
      (hm : MapsTo s.policy c.a s.table m) : StepKind s (commitAnswer m (present c rest s))
  | quiet (t : State) (hq : QuietStep s t) : StepKind s t

/-- A presented command whose one response is quiet takes a quiet step. -/
theorem quietStep_answerWith {s : State} {c : Command} {rest : List Input} {r : Response}
    (hin : s.inputs = .command c :: rest) (rs : List TblReq) (hr : r.Quiet) :
    QuietStep s (answerWith rs r (present c rest s)) where
  notReset := by simp [hin]
  table := rfl
  policy := rfl
  trace := rfl
  responses := ⟨[r], rfl, by simpa using hr⟩
  storeWf h := h

/-- Every step completes and is of one of the three kinds (60_exceptions R180). -/
theorem step_completes (s : State) : ∃ t, step s = .next t ∧ StepKind s t := by
  rcases step_cases s with ⟨hin, h⟩ | ⟨c, rest, i, hin, -, h⟩ | ⟨c, rest, e, hin, -, h⟩ |
    ⟨p, rest, hin, h⟩ | ⟨f, i, e, rest, hin, h⟩
  · exact ⟨s, h, .quiet s ⟨by simp [hin], rfl, rfl, rfl, ⟨[], by simp, by simp⟩, id⟩⟩
  · by_cases hi : i = .map ∨ i = .access
    · exact ⟨_, h.trans (exec_mapOrAccess hi _), .mapped c rest _ hin (mapByPolicy_mapsTo _ _ _)⟩
    · obtain ⟨hmap, haccess⟩ := not_or.1 hi
      obtain ⟨rs, r, hr, -, hexec⟩ := exec_answersAlone hmap haccess c s.store
      exact ⟨_, h.trans (hexec (present c rest s) rfl fun _ => rfl),
        .quiet _ (quietStep_answerWith hin rs hr)⟩
  · refine ⟨_, h, .quiet _ ?_⟩
    rw [raiseIllegalCommand_eq, respond_eq_answerWith]
    exact quietStep_answerWith hin [] (.of_condition (by decide) (by decide))
  · exact ⟨_, h, .reset p rest hin⟩
  · exact ⟨_, h, .quiet _ ⟨by simp [hin], rfl, rfl, rfl, ⟨[], by simp, by simp⟩,
      writeWord_wf (entryAddress_bound f i)⟩⟩

/-- What a step that was taken has done. -/
theorem stepKind_of_step {s t : State} (h : step s = .next t) : StepKind s t := by
  obtain ⟨u, hu, hk⟩ := step_completes s
  obtain rfl : u = t := Host.Outcome.next.inj (hu.symm.trans h)
  exact hk

/-- Settles O17: only a reset writes the policy. -/
theorem policyChangesOnlyAtReset : Obligations.PolicyChangesOnlyAtReset := by
  intro s t h
  cases stepKind_of_step h with
  | reset strap rest hin => simp [hin]
  | mapped c rest m hin hm => simp [hin]
  | quiet t hq =>
    split
    · next strap rest hin => exact absurd hin (hq.notReset strap rest)
    · exact hq.policy

end Sys2Proof.Machine
end

section
/-! What a hit and a scan leave as it was, and what reads the addresses alone. -/

namespace Sys2Proof.Machine

/-! ### The table after a hit -/

@[simp] theorem afterHit_first (p : Policy) (i : Fin 8) (t : FrameTable) :
    (afterHit p i t).first = t.first := by cases p <;> rfl
@[simp] theorem afterHit_last (p : Policy) (i : Fin 8) (t : FrameTable) :
    (afterHit p i t).last = t.last := by cases p <;> rfl
@[simp] theorem afterHit_isFull (p : Policy) (i : Fin 8) (t : FrameTable) :
    (afterHit p i t).isFull = t.isFull := by cases p <;> rfl

/-- A hit sets the `ref` of the slot found, under CLOCK (44_clock R152). -/
@[simp] theorem afterHit_slot (p : Policy) (i j : Fin 8) (t : FrameTable) :
    (afterHit p i t).slot j =
      if i = j then ⟨(t.slot j).va, (freshRef p).getD (t.slot j).ref⟩ else t.slot j := by
  cases p with
  | fifo => simp [afterHit, freshRef]
  | clock => simp [afterHit, touchSlot, freshRef]

/-- A hit changes no address. -/
theorem afterHit_va (p : Policy) (i j : Fin 8) (t : FrameTable) :
    ((afterHit p i t).slot j).va = (t.slot j).va := by
  rw [afterHit_slot]
  split <;> rfl

/-! ### The table when a victim has been chosen -/

@[simp] theorem afterScan_va (p : Policy) (j : Fin 8) (t : FrameTable) :
    ((afterScan p t).slot j).va = (t.slot j).va := by
  cases p with
  | fifo => rfl
  | clock => exact (clockScan_frame scanFuel t).1 j
@[simp] theorem afterScan_isFull (p : Policy) (t : FrameTable) :
    (afterScan p t).isFull = t.isFull := by
  cases p with
  | fifo => rfl
  | clock => exact (clockScan_frame scanFuel t).2.2

end Sys2Proof.Machine
end

section
/-! The occupancy (10_state R25, R36). -/

namespace Sys2Proof.Machine

/-- Where every occupied slot stays occupied, the occupancy does not go down. -/
theorem size_le_of_occupied {t u : FrameTable}
    (h : ∀ j : Fin 8, (t.slot j).va ≠ 0 → (u.slot j).va ≠ 0) : t.size ≤ u.size :=
  List.countP_mono_left fun j _ hj => by simpa using h j (by simpa using hj)

/-- MAP and ACCESS empty no slot: a slot is only written with the address loaded (10_state R36). -/
theorem MapsTo.occupied {p : Policy} {va : Word} {t : FrameTable} {m : MapAnswer}
    (hm : MapsTo p va t m) (j : Fin 8) (hj : (t.slot j).va ≠ 0) : (m.table.slot j).va ≠ 0 := by
  cases hm with
  | ignored => exact hj
  | hit i => rwa [answerHit, afterHit_va]
  | loaded hva =>
    rw [answerLoaded, insertFree_slot]
    split
    · exact hva
    · exact hj
  | replaced hva =>
    rw [answerReplaced, replaceAtFirst_slot]
    split
    · exact hva
    · rwa [afterScan_va]

/-- MAP and ACCESS never clear `is_full` (10_state R36). -/
theorem MapsTo.isFull {p : Policy} {va : Word} {t : FrameTable} {m : MapAnswer}
    (hm : MapsTo p va t m) (hfull : t.isFull = true) : m.table.isFull = true := by
  cases hm with
  | ignored => exact hfull
  | hit i => simpa [answerHit] using hfull
  | loaded _ _ hroom => simp [hroom] at hfull
  | replaced => simpa [answerReplaced] using hfull

/-- Settles O48: a step that is no reset writes slots through MAP and ACCESS only. -/
theorem fullTableStaysFull : Obligations.FullTableStaysFull := by
  intro s t h hreset
  cases stepKind_of_step h with
  | reset strap rest hin => exact absurd hin (hreset strap rest)
  | mapped c rest m hin hm => exact ⟨hm.isFull, size_le_of_occupied hm.occupied, hm.occupied⟩
  | quiet t hq =>
    rw [hq.table]
    exact ⟨id, le_rfl, fun _ => id⟩

/-- As many slots lie below `last` as its number says. -/
theorem countP_below (last : Fin 8) : allSlots.countP (fun i => decide (i < last)) = last.val := by
  revert last
  decide

/-- Settles O49: the occupied slots are those below `last`, or all of them. -/
theorem occupancyFollowsCursors : Obligations.OccupancyFollowsCursors := by
  rintro t ⟨-, hfilling, hfullRing, -⟩
  constructor
  · intro hroom
    obtain ⟨-, hocc⟩ := hfilling hroom
    calc t.size = allSlots.countP (fun i => decide (i < t.last)) :=
          List.countP_congr fun i _ => by simpa using hocc i
      _ = t.last.val := countP_below t.last
  · intro hfull
    obtain ⟨-, hocc⟩ := hfullRing hfull
    exact List.countP_eq_length.2 fun i _ => by simpa using hocc i

end Sys2Proof.Machine
end

section
/-! The invariants of the frame table (10_state R21, R33, R34, R35). -/

namespace Sys2Proof.Machine

/-- The number of a cursor after it has advanced (00_scope R11). -/
theorem inc8_val (c : Fin 8) : (inc8 c).val = (c.val + 1) % 8 := Fin.val_add c 1

/-- The table as created meets the invariants (10_state R39). -/
theorem FrameTable.empty_inv : FrameTable.empty.Inv := by decide

/-- Loading an address that no slot holds makes no duplicate (10_state R33). -/
theorem noDuplicates_of_load {t u : FrameTable} {k : Fin 8} {va : Word} (ht : t.noDuplicates)
    (hmiss : ∀ j : Fin 8, (t.slot j).va ≠ va)
    (hu : ∀ j : Fin 8, (u.slot j).va = if k = j then va else (t.slot j).va) : u.noDuplicates := by
  intro i j hij hi
  rw [hu] at hi
  rw [hu, hu]
  by_cases hki : k = i
  · have hkj : k ≠ j := fun h => hij (hki.symm.trans h)
    rw [if_pos hki, if_neg hkj]
    exact (hmiss j).symm
  · rw [if_neg hki] at hi ⊢
    by_cases hkj : k = j
    · rw [if_pos hkj]
      exact hmiss i
    · rw [if_neg hkj]
      exact ht i j hij hi

/-- A hit keeps the invariants: it may set the `ref` of an occupied slot, and nothing else. -/
theorem afterHit_inv {p : Policy} {t : FrameTable} {i : Fin 8} (ht : t.Inv)
    (hi : (t.slot i).va ≠ 0) : (afterHit p i t).Inv := by
  obtain ⟨hdup, hfilling, hfullRing, hempty⟩ := ht
  simp only [FrameTable.Inv, FrameTable.noDuplicates, FrameTable.filling, FrameTable.fullRing,
    FrameTable.emptyUnreferenced, afterHit_va, afterHit_first, afterHit_last, afterHit_isFull]
  refine ⟨hdup, hfilling, hfullRing, fun j hj => ?_⟩
  have hij : i ≠ j := fun h => hi (h ▸ hj)
  rw [afterHit_slot, if_neg hij]
  exact hempty j hj

/-- After an insertion the occupied slots are those up to the old `last` (10_state R34). -/
theorem insertFree_occupied {t : FrameTable} {va : Word} (r : Option Bool) (hva : va ≠ 0)
    (hocc : ∀ j : Fin 8, (t.slot j).va ≠ 0 ↔ j < t.last) (j : Fin 8) :
    ((insertFree va r t).slot j).va ≠ 0 ↔ j ≤ t.last := by
  rw [insertFree_slot]
  split
  · next h => exact iff_of_true hva (le_of_eq h.symm)
  · next h =>
    rw [hocc, le_iff_lt_or_eq]
    simp [Ne.symm h]

/-- An insertion makes the table full when it fills the last slot (42_frame_table R128). -/
theorem insertFree_isFull_iff {t : FrameTable} (va : Word) (r : Option Bool) (hfirst : t.first = 0)
    (hroom : t.isFull = false) : (insertFree va r t).isFull = true ↔ t.last.val = 7 := by
  simp only [insertFree_isFull, hroom, hfirst, Bool.or_false, decide_eq_true_eq, Fin.ext_iff,
    inc8_val, Fin.val_zero]
  omega

/-- An insertion keeps the invariants: the table goes on filling, or `last` has come round to the hand
and the table is full (42_frame_table R128). -/
theorem insertFree_inv {t : FrameTable} {va : Word} (r : Option Bool) (ht : t.Inv) (hva : va ≠ 0)
    (hmiss : ∀ j : Fin 8, (t.slot j).va ≠ va) (hroom : t.isFull = false) :
    (insertFree va r t).Inv := by
  obtain ⟨hdup, hfilling, -, hempty⟩ := ht
  obtain ⟨hfirst, hocc⟩ := hfilling hroom
  have hocc' := insertFree_occupied r hva hocc
  have hwrap := insertFree_isFull_iff va r hfirst hroom
  refine ⟨noDuplicates_of_load (k := t.last) hdup hmiss fun j => ?_, ?_, ?_, ?_⟩
  · rw [insertFree_slot]
    split <;> rfl
  · intro h
    have hlast : t.last.val ≠ 7 := fun h7 => Bool.false_ne_true (h.symm.trans (hwrap.2 h7))
    refine ⟨(insertFree_first va r t).trans hfirst, fun j => ?_⟩
    rw [hocc' j, insertFree_last, Fin.le_def, Fin.lt_def, inc8_val]
    omega
  · intro h
    have hlast := hwrap.1 h
    refine ⟨?_, fun j => ?_⟩
    · rw [insertFree_first, insertFree_last, hfirst, Fin.ext_iff, inc8_val, hlast]
      rfl
    · rw [hocc' j, Fin.le_def]
      omega
  · intro j hj
    have hlt : ¬ j ≤ t.last := fun hle => (hocc' j).2 hle hj
    have hne : t.last ≠ j := fun h => hlt (h ▸ le_rfl)
    rw [insertFree_slot, if_neg hne] at hj ⊢
    exact hempty j hj

/-- A replacement in a table without an empty slot gives a full ring (42_frame_table R129); where the
cursors stood before does not matter. -/
theorem replaceAtFirst_inv {t : FrameTable} {va : Word} (r : Option Bool) (hdup : t.noDuplicates)
    (hocc : ∀ j : Fin 8, (t.slot j).va ≠ 0) (hva : va ≠ 0)
    (hmiss : ∀ j : Fin 8, (t.slot j).va ≠ va) (hfull : t.isFull = true) :
    (replaceAtFirst va r t).Inv := by
  have hocc' : ∀ j : Fin 8, ((replaceAtFirst va r t).slot j).va ≠ 0 := fun j => by
    rw [replaceAtFirst_slot]
    split
    · exact hva
    · exact hocc j
  refine ⟨noDuplicates_of_load (k := t.first) hdup hmiss fun j => ?_, fun h => ?_,
    fun _ => ⟨rfl, hocc'⟩, fun j hj => absurd hj (hocc' j)⟩
  · rw [replaceAtFirst_slot]
    split <;> rfl
  · simp [hfull] at h

/-- MAP and ACCESS keep the invariants of the frame table. -/
theorem MapsTo.inv {p : Policy} {va : Word} {t : FrameTable} {m : MapAnswer}
    (hm : MapsTo p va t m) (ht : t.Inv) : m.table.Inv := by
  cases hm with
  | ignored => exact ht
  | hit i hva hi => exact afterHit_inv ht (hi ▸ hva)
  | loaded hva hmiss hroom => exact insertFree_inv _ ht hva hmiss hroom
  | replaced hva hmiss hfull =>
    obtain ⟨hdup, -, hfullRing, -⟩ := ht
    obtain ⟨-, hocc⟩ := hfullRing hfull
    refine replaceAtFirst_inv (t := afterScan p t) _ ?_ ?_ hva ?_ ?_
    · simpa [FrameTable.noDuplicates] using hdup
    · simpa using hocc
    · simpa using hmiss
    · simpa using hfull

/-- Settles O45: a reset empties the table, MAP and ACCESS keep the invariants, and every other step
leaves the table alone. -/
theorem frameTableInvariantKept : Obligations.FrameTableInvariantKept := by
  intro s t hs h
  cases stepKind_of_step h with
  | reset strap rest => exact FrameTable.empty_inv
  | mapped c rest m hin hm => exact hm.inv hs
  | quiet t hq => rwa [hq.table]

/-- Settles O46: the table is created empty, whatever the strap. -/
theorem frameTableInvariantAtReset : Obligations.FrameTableInvariantAtReset :=
  ⟨fun _ => FrameTable.empty_inv, FrameTable.empty_inv⟩

/-- Settles O12: the reset value of every element, for every strap. -/
theorem resetValues : Obligations.ResetValues := by
  refine ⟨⟨Config.policyStrap, rfl⟩, fun strap => ⟨fun i => ?_, rfl, rfl, rfl, rfl, rfl⟩⟩
  have hslot : (State.resetWith strap).table.slot i = PageFrame.empty := empty_slot i
  rw [hslot]
  exact ⟨rfl, rfl⟩

end Sys2Proof.Machine
end

section
/-! The `ref` bits: out of play under FIFO (10_state R37, 43_fifo R143), set by a load under CLOCK
(10_state R38, 44_clock R155). -/

namespace Sys2Proof.Machine

/-- Under FIFO MAP and ACCESS write no `ref` bit (43_fifo R143). -/
theorem MapsTo.ref_fifo {va : Word} {t : FrameTable} {m : MapAnswer} (hm : MapsTo .fifo va t m)
    (j : Fin 8) : (m.table.slot j).ref = (t.slot j).ref := by
  cases hm with
  | ignored => rfl
  | hit i => rfl
  | loaded =>
    rw [answerLoaded, insertFree_slot]
    split <;> rfl
  | replaced =>
    rw [answerReplaced, replaceAtFirst_slot]
    split <;> rfl

/-- Two tables that differ in `ref` bits at most. -/
structure SameButRefs (t u : FrameTable) : Prop where
  va : ∀ j : Fin 8, (u.slot j).va = (t.slot j).va
  first : u.first = t.first
  last : u.last = t.last
  isFull : u.isFull = t.isFull

/-- The lookup compares addresses only (42_frame_table R121). -/
theorem SameButRefs.find {t u : FrameTable} (h : SameButRefs t u) (va : Word) :
    Machine.find va u = Machine.find va t := by
  simp only [Machine.find, h.va]

/-- An insertion under FIFO reads no `ref` bit. -/
theorem SameButRefs.insertFree {t u : FrameTable} (h : SameButRefs t u) (va : Word) :
    SameButRefs (insertFree va none t) (insertFree va none u) where
  va j := by
    rw [insertFree_slot, insertFree_slot, h.last]
    split
    · rfl
    · exact h.va j
  first := by rw [insertFree_first, insertFree_first, h.first]
  last := by rw [insertFree_last, insertFree_last, h.last]
  isFull := by rw [insertFree_isFull, insertFree_isFull, h.last, h.first, h.isFull]

/-- A replacement under FIFO reads no `ref` bit. -/
theorem SameButRefs.replaceAtFirst {t u : FrameTable} (h : SameButRefs t u) (va : Word) :
    SameButRefs (replaceAtFirst va none t) (replaceAtFirst va none u) where
  va j := by
    rw [replaceAtFirst_slot, replaceAtFirst_slot, h.first]
    split
    · rfl
    · exact h.va j
  first := by rw [replaceAtFirst_first, replaceAtFirst_first, h.first]
  last := by rw [replaceAtFirst_last, replaceAtFirst_last, h.first]
  isFull := by rw [replaceAtFirst_isFull, replaceAtFirst_isFull, h.isFull]

/-- MAP under FIFO reads no `ref` bit: the same case, the same events, the same addresses, cursors and
mark (43_fifo R143). -/
theorem SameButRefs.mapFifo {t u : FrameTable} (h : SameButRefs t u) (va : Word) :
    SameButRefs (mapFifo va t).table (mapFifo va u).table ∧
      (mapFifo va u).events = (mapFifo va t).events ∧
      (mapFifo va u).outcome = (mapFifo va t).outcome := by
  unfold Machine.mapFifo
  rw [h.find va, h.isFull]
  split
  · exact ⟨h, rfl, rfl⟩
  · cases Machine.find va t with
    | some i => exact ⟨h, rfl, rfl⟩
    | none =>
      cases t.isFull with
      | false => exact ⟨h.insertFree va, rfl, rfl⟩
      | true =>
        refine ⟨h.replaceAtFirst va, ?_, rfl⟩
        simp only [if_true, answerReplaced, h.first, h.va]

/-- Every step keeps the `ref` bits 0 while the policy is FIFO (10_state R37). -/
theorem fifoRefsClear_kept {s t : State} (hs : s.fifoRefsClear) (h : step s = .next t) :
    t.fifoRefsClear := by
  cases stepKind_of_step h with
  | reset strap rest =>
    intro _ j
    rw [applyReset_table, empty_slot]
    rfl
  | mapped c rest m hin hm =>
    intro hp j
    have hp : s.policy = .fifo := hp
    rw [hp] at hm
    exact (hm.ref_fifo j).trans (hs hp j)
  | quiet t hq =>
    intro hp
    rw [hq.table]
    exact hs (hq.policy.symm.trans hp)

/-- Settles O50: under FIFO the bits are neither written nor read by MAP and ACCESS, and no step sets
one. -/
theorem fifoLeavesReferencedBitsAlone : Obligations.FifoLeavesReferencedBitsAlone := by
  refine ⟨fun s u i hi hp hva hfirst hlast hisFull => ?_, fun s t => fifoRefsClear_kept⟩
  have hm := mapByPolicy_mapsTo s.policy s.port.a s.table
  obtain ⟨hsame, hevents, houtcome⟩ :=
    (SameButRefs.mk hva hfirst hlast hisFull).mapFifo s.port.a
  refine ⟨_, _, exec_mapOrAccess hi s, exec_mapOrAccess hi { s with table := u }, ?_⟩
  simp only [commitAnswer_table, commitAnswer_trace, commitAnswer_responses]
  rw [hp] at hm ⊢
  change MapsTo _ _ _ (mapFifo _ _) at hm
  simp only [mapByPolicy]
  exact ⟨hm.ref_fifo, hsame.va, hsame.first, hsame.last, hsame.isFull, by rw [hevents],
    by rw [houtcome]⟩

/-- A miss under CLOCK leaves the address in a slot, and every slot that holds it referenced
(44_clock R155). -/
theorem MapsTo.clock_miss_referenced {va : Word} {t : FrameTable} {m : MapAnswer}
    (hm : MapsTo .clock va t m) (hva : va ≠ 0) (hmiss : ∀ j : Fin 8, (t.slot j).va ≠ va) :
    (∃ j : Fin 8, (m.table.slot j).va = va) ∧
      ∀ j : Fin 8, (m.table.slot j).va = va → (m.table.slot j).ref = true := by
  cases hm with
  | ignored h0 => exact absurd h0 hva
  | hit i _ hi => exact absurd hi (hmiss i)
  | loaded =>
    refine ⟨⟨t.last, by simp [answerLoaded]⟩, fun j hj => ?_⟩
    rw [answerLoaded, insertFree_slot] at hj ⊢
    split at hj
    · next hk => simp [hk, freshRef]
    · exact absurd hj (hmiss j)
  | replaced =>
    refine ⟨⟨(afterScan .clock t).first, by simp [answerReplaced]⟩, fun j hj => ?_⟩
    rw [answerReplaced, replaceAtFirst_slot] at hj ⊢
    split at hj
    · next hk => simp [hk, freshRef]
    · exact absurd ((afterScan_va .clock j t).symm.trans hj) (hmiss j)

/-- Settles O51: MAP and ACCESS commit the answer of the policy, and a miss loads a referenced page. -/
theorem loadedPageCountsAsReferenced : Obligations.LoadedPageCountsAsReferenced := by
  intro s i hi hp hva hmiss
  have hm := mapByPolicy_mapsTo s.policy s.port.a s.table
  refine ⟨_, exec_mapOrAccess hi s, ?_⟩
  rw [commitAnswer_table]
  rw [hp] at hm ⊢
  exact hm.clock_miss_referenced hva hmiss

end Sys2Proof.Machine
end

section
/-! The trace against the ring: what loads and evictions do to the order of the residents (43_fifo R142,
44_clock R155). -/

namespace Sys2Proof.Machine

@[simp] theorem loadsOf_append (l k : List Event) : loadsOf (l ++ k) = loadsOf l ++ loadsOf k :=
  List.filterMap_append
@[simp] theorem evictsOf_append (l k : List Event) : evictsOf (l ++ k) = evictsOf l ++ evictsOf k :=
  List.filterMap_append
@[simp] theorem loadsOf_load (va : Word) : loadsOf [.load va] = [va] := rfl
@[simp] theorem evictsOf_load (va : Word) : evictsOf [.load va] = [] := rfl
@[simp] theorem loadsOf_evict_load (x va : Word) : loadsOf [.evict x, .load va] = [va] := rfl
@[simp] theorem evictsOf_evict_load (x va : Word) : evictsOf [.evict x, .load va] = [x] := rfl

/-- From a hand at slot 0 the ring is the slots in index order. -/
theorem ringSlot_val {t : FrameTable} (hfirst : t.first = 0) {k : Nat} (hk : k < 8) :
    (ringSlot t k).val = k := by
  simp [ringSlot, hfirst, Nat.mod_eq_of_lt hk]

/-- A hit leaves the residents in their order. -/
theorem ringOrder_afterHit (p : Policy) (i : Fin 8) (t : FrameTable) :
    (afterHit p i t).ringOrder = t.ringOrder := by
  simp only [FrameTable.ringOrder, ringSlot, afterHit_va, afterHit_first, afterHit_last,
    afterHit_isFull]

/-- The number of residents after an insertion: one more. -/
theorem insertFree_count {t : FrameTable} (va : Word) (r : Option Bool) (hfirst : t.first = 0)
    (hroom : t.isFull = false) :
    (if (insertFree va r t).isFull then 8 else (insertFree va r t).last.val) = t.last.val + 1 := by
  have hwrap := insertFree_isFull_iff va r hfirst hroom
  split
  · next h => rw [hwrap.1 h]
  · next h =>
    have hlast : t.last.val ≠ 7 := fun h7 => h (hwrap.2 h7)
    rw [insertFree_last, inc8_val]
    omega

/-- An insertion puts the new address behind the residents (42_frame_table R128). -/
theorem ringOrder_insertFree {t : FrameTable} (va : Word) (r : Option Bool) (hfirst : t.first = 0)
    (hroom : t.isFull = false) :
    (insertFree va r t).ringOrder = t.ringOrder ++ [va] := by
  have hring : ∀ k, ringSlot (insertFree va r t) k = ringSlot t k := fun k => by
    rw [ringSlot, ringSlot, insertFree_first]
  have hnew : ringSlot t t.last.val = t.last := Fin.ext (ringSlot_val hfirst t.last.isLt)
  have hold : ∀ k < t.last.val, t.last ≠ ringSlot t k := fun k hk h => by
    have := ringSlot_val hfirst (hk.trans t.last.isLt)
    rw [← h] at this
    omega
  rw [FrameTable.ringOrder, FrameTable.ringOrder, insertFree_count va r hfirst hroom,
    List.range_succ, List.map_append, if_neg (by simp [hroom])]
  congr 1
  · refine List.map_congr_left fun k hk => ?_
    rw [hring, insertFree_slot, if_neg (hold k (List.mem_range.1 hk))]
  · simp [hring, hnew]

/-- The residents of a full ring, the one at the hand first. -/
theorem ringOrder_full {t : FrameTable} (hfull : t.isFull = true) :
    t.ringOrder = (List.range 8).map (fun k => (t.slot (ringSlot t k)).va) := by
  rw [FrameTable.ringOrder, if_pos hfull]

/-- The ring seen from the hand after it has moved past one slot. -/
theorem ringSlot_replaceAtFirst (va : Word) (r : Option Bool) (t : FrameTable) (k : Nat) :
    ringSlot (replaceAtFirst va r t) k = ringSlot t (k + 1) := by
  rw [ringSlot, ringSlot, replaceAtFirst_first, inc8, Fin.ext_iff]
  simp only [Fin.val_add, Fin.val_ofNat, Fin.val_one]
  omega

/-- Seen from the hand, only place 0 and place 8 of the ring are the hand. -/
theorem ringSlot_ne_first (t : FrameTable) {k : Nat} (hk0 : 0 < k) (hk : k < 8) :
    t.first ≠ ringSlot t k := by
  intro h
  have := congrArg Fin.val h
  simp only [ringSlot, Fin.val_add, Fin.val_ofNat] at this
  omega

/-- The oldest resident of a full ring stands at the hand. -/
theorem ringOrder_full_cons {t : FrameTable} (hfull : t.isFull = true) :
    t.ringOrder =
      (t.slot t.first).va :: (List.range 7).map (fun k => (t.slot (ringSlot t (k + 1))).va) := by
  have hfront : ringSlot t 0 = t.first := by simp [ringSlot]
  rw [ringOrder_full hfull, List.range_succ_eq_map, List.map_cons, List.map_map, hfront]
  rfl

/-- After a replacement the ring is what stood behind the hand, and then the new address
(42_frame_table R129). -/
theorem ringOrder_replaceAtFirst_append {t : FrameTable} (va : Word) (r : Option Bool)
    (hfull : t.isFull = true) :
    (replaceAtFirst va r t).ringOrder =
      (List.range 7).map (fun k => (t.slot (ringSlot t (k + 1))).va) ++ [va] := by
  have hback : ringSlot t 8 = t.first := by simp [ringSlot]
  have hrest : ∀ k ∈ List.range 7,
      ((replaceAtFirst va r t).slot (ringSlot (replaceAtFirst va r t) k)).va =
        (t.slot (ringSlot t (k + 1))).va := fun k hk => by
    have hk := List.mem_range.1 hk
    rw [ringSlot_replaceAtFirst, replaceAtFirst_slot,
      if_neg (ringSlot_ne_first t k.succ_pos (by omega))]
  have hnew : ((replaceAtFirst va r t).slot (ringSlot (replaceAtFirst va r t) 7)).va = va := by
    rw [ringSlot_replaceAtFirst, hback, replaceAtFirst_slot, if_pos rfl]
  rw [ringOrder_full ((replaceAtFirst_isFull va r t).trans hfull), List.range_succ,
    List.map_append, List.map_congr_left hrest, List.map_singleton, hnew]

/-- A replacement takes the oldest resident off the front and puts the new address at the back
(43_fifo R142). -/
theorem ringOrder_replaceAtFirst {t : FrameTable} (va : Word) (r : Option Bool)
    (hfull : t.isFull = true) :
    (t.slot t.first).va :: (replaceAtFirst va r t).ringOrder = t.ringOrder ++ [va] := by
  rw [ringOrder_replaceAtFirst_append va r hfull, ringOrder_full_cons hfull, List.cons_append]

/-- FIFO's order is kept by MAP and ACCESS: a load goes to the back of the ring, and a victim is taken
from the front (43_fifo R142). -/
theorem MapsTo.fifoOrder {va : Word} {t : FrameTable} {m : MapAnswer} {trace : List Event}
    (hm : MapsTo .fifo va t m) (ht : t.Inv) (h : loadsOf trace = evictsOf trace ++ t.ringOrder) :
    loadsOf (trace ++ m.events) = evictsOf (trace ++ m.events) ++ m.table.ringOrder := by
  obtain ⟨-, hfilling, -, -⟩ := ht
  cases hm with
  | ignored => simpa [answerIgnored] using h
  | hit i => simpa [answerHit, afterHit] using h
  | loaded _ _ hroom =>
    obtain ⟨hfirst, -⟩ := hfilling hroom
    simp [answerLoaded, ringOrder_insertFree _ _ hfirst hroom, h]
  | replaced _ _ hfull =>
    simp [answerReplaced, afterScan, ringOrder_replaceAtFirst _ _ hfull, h]

/-- Every step keeps FIFO's order (43_fifo R142). -/
theorem fifoOrder_kept {s t : State} (hinv : s.table.Inv) (hs : s.fifoOrder)
    (h : step s = .next t) : t.fifoOrder := by
  cases stepKind_of_step h with
  | reset strap rest => exact fun _ => rfl
  | mapped c rest m hin hm =>
    intro hp
    have hp : s.policy = .fifo := hp
    rw [hp] at hm
    exact hm.fifoOrder hinv (hs hp)
  | quiet t hq =>
    intro hp
    rw [hq.trace, hq.table]
    exact hs (hq.policy.symm.trans hp)

/-- A load under CLOCK into a table whose residents all count as referenced leaves it so. -/
theorem insertFree_referenced {t : FrameTable} (va : Word)
    (href : ∀ j : Fin 8, (t.slot j).va ≠ 0 → (t.slot j).ref = true) (j : Fin 8)
    (hj : ((insertFree va (some true) t).slot j).va ≠ 0) :
    ((insertFree va (some true) t).slot j).ref = true := by
  rw [insertFree_slot] at hj ⊢
  split at hj
  · next hk => simp [hk]
  · next hk => simpa [hk] using href j hj

/-- Every step keeps what holds before the first eviction: no rule but a replacement moves the hand, and
a replacement evicts (44_clock R155). -/
theorem beforeFirstEviction_kept {s t : State} (hs : s.beforeFirstEviction)
    (h : step s = .next t) : t.beforeFirstEviction := by
  cases stepKind_of_step h with
  | reset strap rest =>
    exact fun _ => ⟨rfl, rfl, fun _ j hj => absurd (congrArg PageFrame.va (empty_slot j)) hj⟩
  | quiet t hq =>
    rw [State.beforeFirstEviction, hq.trace, hq.table, hq.policy]
    exact hs
  | mapped c rest m hin hm =>
    rw [State.beforeFirstEviction, commitAnswer_trace, commitAnswer_table, commitAnswer_policy,
      present_trace, present_policy]
    intro hnone
    obtain ⟨hnone, hevents⟩ := List.append_eq_nil_iff.1 ((evictsOf_append _ _).symm.trans hnone)
    obtain ⟨hfirst, hloads, href⟩ := hs hnone
    cases hm with
    | ignored => exact ⟨hfirst, by simpa [answerIgnored] using hloads, href⟩
    | hit i =>
      refine ⟨(afterHit_first _ _ _).trans hfirst, ?_, fun hp j hj => ?_⟩
      · simpa [answerHit, ringOrder_afterHit] using hloads
      · rw [answerHit, afterHit_va] at hj
        rw [answerHit, afterHit_slot, hp]
        split
        · rfl
        · exact href hp j hj
    | loaded _ _ hroom =>
      refine ⟨(insertFree_first _ _ _).trans hfirst, ?_, fun hp => ?_⟩
      · simp [answerLoaded, ringOrder_insertFree _ _ hfirst hroom, hloads]
      · rw [answerLoaded, hp]
        exact insertFree_referenced c.a (href hp)
    | replaced => simp [answerReplaced] at hevents

end Sys2Proof.Machine
end

section
/-! The state invariant: every step keeps it, it holds at reset, and so it holds at the end of every run
(10_state section 5). -/

namespace Sys2Proof.Machine

/-- The response of MAP or ACCESS is counted as the trace counts it: a miss for each LOAD, an eviction
for each EVICT (42_frame_table R126). -/
theorem MapsTo.eventsCounted {p : Policy} {va : Word} {t : FrameTable} {m : MapAnswer}
    (hm : MapsTo p va t m) :
    (loadsOf m.events).length =
        [Response.mk (statusCode .ok) (outcomeCode m.outcome) none].countP Response.isMiss ∧
      (evictsOf m.events).length =
        [Response.mk (statusCode .ok) (outcomeCode m.outcome) none].countP Response.isEviction := by
  cases hm with
  | ignored => exact ⟨rfl, rfl⟩
  | hit => exact ⟨rfl, rfl⟩
  | loaded => exact ⟨rfl, rfl⟩
  | replaced => exact ⟨rfl, rfl⟩

/-- Quiet responses count for nothing. -/
theorem countP_quiet {rs : List Response} (h : ∀ r ∈ rs, r.Quiet) :
    rs.countP Response.isMiss = 0 ∧ rs.countP Response.isEviction = 0 :=
  ⟨List.countP_eq_zero.2 fun r hr => by simp [(h r hr).notMiss],
    List.countP_eq_zero.2 fun r hr => by simp [(h r hr).notEviction]⟩

/-- Every step keeps the counts of events and responses equal (42_frame_table R126). -/
theorem eventsCounted_kept {s t : State} (hs : s.eventsCounted) (h : step s = .next t) :
    t.eventsCounted := by
  obtain ⟨hloads, hevicts⟩ := hs
  cases stepKind_of_step h with
  | reset strap rest => exact ⟨rfl, rfl⟩
  | mapped c rest m hin hm =>
    obtain ⟨hmloads, hmevicts⟩ := hm.eventsCounted
    rw [State.eventsCounted, commitAnswer_trace, commitAnswer_responses, present_trace,
      present_responses, loadsOf_append, evictsOf_append, List.length_append, List.length_append,
      List.countP_append, List.countP_append, hloads, hevicts, hmloads, hmevicts]
    exact ⟨rfl, rfl⟩
  | quiet t hq =>
    obtain ⟨rs, hrs, hquiet⟩ := hq.responses
    obtain ⟨hmiss, hevict⟩ := countP_quiet hquiet
    rw [State.eventsCounted, hq.trace, hrs, List.countP_append, List.countP_append, hmiss, hevict]
    exact ⟨hloads, hevicts⟩

/-- The outcome codes fit the response port (42_frame_table R130, 30_encoding R74). -/
theorem outcome_legal (o : MapCase) :
    (Response.mk (statusCode .ok) (outcomeCode o) none).legal = true := by
  cases o <;> decide

/-- Every step answers in legal form (30_encoding R74 to R76). -/
theorem responsesLegal_kept {s t : State} (hs : s.responses.all Response.legal = true)
    (h : step s = .next t) : t.responses.all Response.legal = true := by
  cases stepKind_of_step h with
  | reset strap rest => rfl
  | mapped c rest m hin hm =>
    rw [commitAnswer_responses, present_responses, List.all_append, hs]
    simp [outcome_legal]
  | quiet t hq =>
    obtain ⟨rs, hrs, hquiet⟩ := hq.responses
    rw [hrs, List.all_append, hs, Bool.true_and]
    exact List.all_eq_true.2 fun r hr => (hquiet r hr).legal

/-- Every step keeps the table store canonical (the model's form, log 8 and log 9). -/
theorem storeWf_kept {s t : State} (hs : s.store.wf) (h : step s = .next t) : t.store.wf := by
  cases stepKind_of_step h with
  | reset strap rest => exact hs
  | mapped c rest m hin hm => exact hs
  | quiet t hq => exact hq.storeWf hs

/-- Settles O59: each part of the invariant is kept, FIFO's order with the help of the table's part. -/
theorem everyInvariantKept : Obligations.EveryInvariantKept := by
  rintro s t ⟨htable, hrefs, horder, hcounts, hbefore, hlegal, hstore⟩ h
  exact ⟨frameTableInvariantKept s t htable h, fifoRefsClear_kept hrefs h,
    fifoOrder_kept htable horder h, eventsCounted_kept hcounts h,
    beforeFirstEviction_kept hbefore h, responsesLegal_kept hlegal h, storeWf_kept hstore h⟩

/-- The invariant holds after a reset, whatever the environment. -/
theorem resetWith_inv (strap : Policy) (store : Memory) (inputs : List Input) (hstore : store.wf) :
    { State.resetWith strap with store := store, inputs := inputs }.Inv := by
  have hslot : ∀ j : Fin 8, (State.resetWith strap).table.slot j = PageFrame.empty := empty_slot
  refine ⟨FrameTable.empty_inv, fun _ j => congrArg PageFrame.ref (hslot j), fun _ => rfl,
    ⟨rfl, rfl⟩, fun _ => ⟨rfl, rfl, fun _ j hj => ?_⟩, rfl, hstore⟩
  exact absurd (congrArg PageFrame.va (hslot j)) hj

/-- Settles O60: the block is as created, and the environment's store is canonical. -/
theorem everyInvariantAtReset : Obligations.EveryInvariantAtReset :=
  ⟨resetWith_inv Config.policyStrap [] [] Memory.wf_nil, resetWith_inv⟩

/-- A run whose first step completes goes on from where that step went. -/
theorem run_succ {M : Host.Core} {s u : M.State} (h : M.step s = .next u) (k : Nat) :
    M.run (k + 1) s = M.run k u := by
  rw [Host.Core.run, h]

/-- What every step keeps holds at the end of every run, and no run stops (60_exceptions R180). -/
theorem run_keeps {P : State → Prop} (hstep : ∀ s t, P s → step s = .next t → P t) (k : Nat)
    (s : State) (hs : P s) : ∃ t, Host.Core.run Sys2Proof.core k s = .next t ∧ P t := by
  induction k generalizing s with
  | zero => exact ⟨s, rfl, hs⟩
  | succ k ih =>
    obtain ⟨u, hu, -⟩ := step_completes s
    obtain ⟨t, ht, hP⟩ := ih u (hstep s u hs hu)
    exact ⟨t, (run_succ (M := Sys2Proof.core) hu k).trans ht, hP⟩

/-- Settles O57: the invariant holds at reset and every step keeps it. -/
theorem runsKeepEveryInvariant : Obligations.RunsKeepEveryInvariant := by
  intro strap store inputs k hstore
  exact run_keeps everyInvariantKept k _ (resetWith_inv strap store inputs hstore)

end Sys2Proof.Machine
end

section
/-! The table store: no command writes it, and the caller's write changes the entry it names alone
(20_memory R59, R68). -/

namespace Sys2Proof.Machine

/-- A command records its requests and its response; none writes the store (20_memory R59). -/
theorem exec_store {i : Instr} {s t : State} (h : exec i s = .next t) : t.store = s.store := by
  by_cases hi : i = .map ∨ i = .access
  · obtain rfl := Host.Outcome.next.inj ((exec_mapOrAccess hi s).symm.trans h)
    exact commitAnswer_store _ s
  · obtain ⟨hmap, haccess⟩ := not_or.1 hi
    obtain ⟨rs, r, -, -, hexec⟩ := exec_answersAlone hmap haccess s.port s.store
    obtain rfl := Host.Outcome.next.inj ((hexec s rfl fun _ => rfl).symm.trans h)
    rfl

/-- Whatever word is on the port, legal or not, running it leaves the store (20_memory R59). -/
theorem runPort_store {s t : State} (h : runPort s = .next t) : t.store = s.store := by
  unfold runPort at h
  split at h
  · exact exec_store h
  · obtain rfl := Host.Outcome.next.inj h
    rw [raiseIllegalCommand_eq, respond_store]

/-- Settles O18: a presented command is run on the port, and that leaves the store. -/
theorem commandsWriteNoMemory : Obligations.CommandsWriteNoMemory := by
  intro s t c rest hin h
  have hstore : t.store = s.store := by
    rw [step_of_command hin] at h
    rw [runPort_store h, present_store]
  exact ⟨hstore, fun a => by rw [hstore]⟩

/-- The step of a table write (20_memory R68). -/
theorem step_of_tableWrite {s : State} {frame : BitVec 40} {index : BitVec 9} {entry : Word}
    {rest : List Input} (hin : s.inputs = .tableWrite frame index entry :: rest) :
    step s = .next (applyTableWrite frame index entry rest s) := by
  simp only [step, hin]

/-- Settles O19: entries are eight bytes inside the address space and do not overlap. -/
theorem tableWriteChangesOneEntry : Obligations.TableWriteChangesOneEntry := by
  intro s frame index entry rest hwf hin
  refine ⟨_, step_of_tableWrite hin, writeWord_wf (entryAddress_bound frame index) hwf, rfl,
    fun g j => ?_⟩
  rw [applyTableWrite_store, tblRead_writeWord hwf]
  exact if_congr (and_congr eq_comm eq_comm) rfl rfl

/-- Settles O56: commands and resets leave the store, and a table write keeps its form. -/
theorem storeStaysCanonical : Obligations.StoreStaysCanonical :=
  fun _ _ hwf h => storeWf_kept hwf h

end Sys2Proof.Machine
end

section
/-! What each command answers, as a response of its operands (30_encoding R74 to R76). -/

namespace Sys2Proof.Machine

/-- The answer of a command that appends one response. -/
theorem answer_of_exec {i : Instr} {a b : Word} {s t : State} {r : Response}
    (h : exec i { s with port := ⟨encode i, a, b⟩ } = .next t)
    (hr : t.responses = s.responses ++ [r]) : answer i a b s = some r := by
  simp [answer, h, hr]

/-- MAP answers OK with the code of the case it took (42_frame_table R130). -/
theorem answer_map (a b : Word) (s : State) :
    answer .map a b s =
      some ⟨statusCode .ok, outcomeCode (mapByPolicy s.policy a s.table).outcome, none⟩ :=
  answer_of_exec (exec_mapOrAccess (.inl rfl) _) (commitAnswer_responses _ _)

/-- An index command answers the index of its level (41_address_translator R105). -/
theorem answer_index (k : Level) (a b : Word) (s : State) :
    answer (indexInstr k) a b s = some ⟨statusCode .ok, 0, some (zext64 (indexLevel k a))⟩ := by
  cases k <;> exact answer_of_exec rfl rfl

/-- The response of `pte_to_physical` (41_address_translator R107, R108). -/
def physicalResponse : Option Word → Response
  | some pa => ⟨statusCode .ok, 0, some pa⟩
  | none => ⟨statusCode .pageFault, 0, none⟩

/-- PTE2PA answers what `pte_to_physical` makes of its operands (41_address_translator R107, R108). -/
theorem answer_pte2pa (pte va : Word) (s : State) :
    answer .pte2pa pte va s = some (physicalResponse (pteToPhysical pte va)) := by
  refine answer_of_exec rfl ?_
  dsimp only
  unfold respondPhysical
  cases pteToPhysical pte va <;> rfl

/-- The response of a finished walk (45_walker R166, R167). -/
def walkResponse (va : Word) : Except Level Word → Response
  | .ok pte => ⟨statusCode .ok, 0, some (physicalAddress pte va)⟩
  | .error k => ⟨statusCode .pageFault, BitVec.ofNat 3 (levelNumber k), none⟩

/-- WALK answers by the end of the walk over all four levels (45_walker R166, R167). -/
theorem answer_walk (va root : Word) (s : State) :
    answer .walk va root s =
      some (walkResponse va (walkLevels s.store va walkOrder root).ended) := by
  refine answer_of_exec rfl ?_
  dsimp only [walkCommand]
  cases (walkLevels s.store va walkOrder root).ended <;> rfl

end Sys2Proof.Machine
end

section
/-! The bits the translator and the walker ignore (20_memory R54, R55, 41_address_translator R109,
45_walker R171). -/

namespace Sys2Proof.Machine

/-- Two entries agree on what a translation looks at: PRESENT and bits 51:12 (20_memory R54). -/
structure SameEntry (e f : Word) : Prop where
  present : isPresent e = isPresent f
  frame : frameNumber e = frameNumber f

/-- Two table stores agree so in every entry of every table. -/
def SameEntries (m n : Memory) : Prop :=
  ∀ (g : BitVec 40) (j : BitVec 9),
    SameEntry (tblRead m ⟨g ++ 0#12, j⟩) (tblRead n ⟨g ++ 0#12, j⟩)

/-- Two virtual addresses agree on their translated part, bits 47:0 (20_memory R55). -/
def SameTranslated (va wa : Word) : Prop := va.extractLsb' 0 48 = wa.extractLsb' 0 48

/-- A field inside bits 47:0 is the same field of the translated part. -/
theorem SameTranslated.field {va wa : Word} (h : SameTranslated va wa) {lo w : Nat}
    (hw : lo + w ≤ 48) : va.extractLsb' lo w = wa.extractLsb' lo w := by
  have inner : ∀ v : Word, (v.extractLsb' 0 48).extractLsb' lo w = v.extractLsb' lo w := fun v => by
    rw [BitVec.extractLsb'_extractLsb'_of_le hw]
  rw [← inner va, ← inner wa, h]

/-- Every level index lies inside bits 47:0 (41_address_translator R105). -/
theorem SameTranslated.index {va wa : Word} (h : SameTranslated va wa) (k : Level) :
    indexLevel k va = indexLevel k wa :=
  h.field (by cases k <;> decide)

/-- The page offset lies inside bits 47:0 (41_address_translator R105). -/
theorem SameTranslated.offset {va wa : Word} (h : SameTranslated va wa) :
    pageOffset va = pageOffset wa :=
  h.field (by decide)

/-- The masked address is the page offset, zero extended (20_memory R53). -/
theorem and_offsetMask (va : Word) : va &&& 0xFFF = zext64 (pageOffset va) := by
  apply BitVec.eq_of_toNat_eq
  have hmask : (0xFFF : Word).toNat = 2 ^ 12 - 1 := rfl
  rw [BitVec.toNat_and, hmask, Nat.and_two_pow_sub_one_eq_mod]
  simp only [zext64, pageOffset, BitVec.toNat_setWidth, BitVec.extractLsb'_toNat]
  omega

/-- A physical address is made of the frame number and the page offset alone (20_memory R53). -/
theorem physicalAddress_congr {e f va wa : Word} (hframe : frameNumber e = frameNumber f)
    (hoff : pageOffset va = pageOffset wa) : physicalAddress e va = physicalAddress f wa := by
  rw [physicalAddress, physicalAddress, and_offsetMask, and_offsetMask, hframe, hoff]

/-- `pte_to_physical` looks at PRESENT, the frame number and the page offset (41_address_translator
R109). -/
theorem pteToPhysical_congr {e f va wa : Word} (h : SameEntry e f)
    (hoff : pageOffset va = pageOffset wa) : pteToPhysical e va = pteToPhysical f wa := by
  rw [pteToPhysical, pteToPhysical, h.present, physicalAddress_congr h.frame hoff]

/-- Walks over stores that agree in every entry end alike: each level reads the same entry of both,
and of the word read only PRESENT and the frame number go on (45_walker R171). -/
theorem walkResponse_congr {m n : Memory} {va wa : Word} (hstore : SameEntries m n)
    (hva : SameTranslated va wa) (ks : List Level) {h h' : Word}
    (hframe : frameNumber h = frameNumber h') :
    walkResponse va (walkLevels m va ks h).ended =
      walkResponse wa (walkLevels n wa ks h').ended := by
  induction ks generalizing h h' with
  | nil => simp only [walkLevels, walkResponse, physicalAddress_congr hframe hva.offset]
  | cons k ks ih =>
    have hread : SameEntry (tblRead m ⟨tableBase h, indexLevel k va⟩)
        (tblRead n ⟨tableBase h', indexLevel k wa⟩) := by
      rw [tableBase, tableBase, ← hframe, ← hva.index]
      exact hstore _ _
    cases hp : isPresent (tblRead m ⟨tableBase h, indexLevel k va⟩) with
    | true =>
      rw [walkLevels_present ks hp, walkLevels_present ks (hread.present.symm.trans hp)]
      exact ih hread.frame
    | false =>
      rw [walkLevels_absent ks hp, walkLevels_absent ks (hread.present.symm.trans hp)]
      rfl

/-- Settles O30: each answer is a function of the bits that agree. -/
theorem ignoredBitsHaveNoEffect : Obligations.IgnoredBitsHaveNoEffect := by
  intro s u
  refine ⟨fun hpresent hframe hoff => ?_, fun hva => ?_, fun hva hroot hentries => ?_⟩
  · rw [answer_pte2pa, answer_pte2pa, pteToPhysical_congr ⟨hpresent, hframe⟩ hoff]
  · have hindex : ∀ k, answer (indexInstr k) s.port.a s.port.b s =
        answer (indexInstr k) u.port.a u.port.b u := fun k => by
      rw [answer_index, answer_index, SameTranslated.index hva]
    exact ⟨hindex .one, hindex .two, hindex .three, hindex .four⟩
  · have hstore : SameEntries s.store u.store := fun g j =>
      ⟨(hentries g j).1, (hentries g j).2⟩
    rw [answer_walk, answer_walk, walkResponse_congr hstore hva walkOrder hroot]

end Sys2Proof.Machine
end

section
/-! Keys are whole addresses: MAP of one address makes no other resident (20_memory R56,
42_frame_table R121). -/

namespace Sys2Proof.Machine

/-- An address that no slot holds is in no slot after another address is mapped. -/
theorem MapsTo.absent {p : Policy} {x y : Word} {t : FrameTable} {m : MapAnswer}
    (hm : MapsTo p x t m) (hxy : x ≠ y) (hy : ∀ j : Fin 8, (t.slot j).va ≠ y) (j : Fin 8) :
    (m.table.slot j).va ≠ y := by
  cases hm with
  | ignored => exact hy j
  | hit i =>
    rw [answerHit, afterHit_va]
    exact hy j
  | loaded =>
    rw [answerLoaded, insertFree_slot]
    split
    · exact hxy
    · exact hy j
  | replaced =>
    rw [answerReplaced, replaceAtFirst_slot]
    split
    · exact hxy
    · rw [afterScan_va]
      exact hy j

/-- A non-zero address that no slot holds is a miss (42_frame_table R130). -/
theorem MapsTo.outcome_of_absent {p : Policy} {va : Word} {t : FrameTable} {m : MapAnswer}
    (hm : MapsTo p va t m) (hva : va ≠ 0) (hmiss : ∀ j : Fin 8, (t.slot j).va ≠ va) :
    m.outcome = .loaded ∨ m.outcome = .replaced := by
  cases hm with
  | ignored hzero => exact absurd hzero hva
  | hit i _ hi => exact absurd hi (hmiss i)
  | loaded => exact .inl rfl
  | replaced => exact .inr rfl

/-- Settles O44: `y` is in no slot after MAP of `x`, so MAP of `y` finds nothing. -/
theorem keysAreWholeAddresses : Obligations.KeysAreWholeAddresses := by
  intro s x y _ hy hxy habsent
  have hstill : ∀ j : Fin 8, ((mapByPolicy s.policy x s.table).table.slot j).va ≠ y :=
    (mapByPolicy_mapsTo s.policy x s.table).absent hxy habsent
  refine ⟨_, _, exec_mapOrAccess (.inl rfl) _, answer_map y 0 _, rfl, ?_⟩
  rw [commitAnswer_policy, commitAnswer_table]
  exact ((mapByPolicy_mapsTo s.policy y _).outcome_of_absent hy hstill).imp
    (congrArg outcomeCode) (congrArg outcomeCode)

end Sys2Proof.Machine
end

section
/-! The decoder and the encoder: a word decodes to a command exactly when its number is the command's
index operand times 256 plus its opcode (30_encoding R71 to R73, R77, R81). -/

namespace Sys2Proof

/-- The fields of a command word as numbers (30_encoding R71). -/
@[simp] theorem opField_toNat (w : BitVec 16) : (opField w).toNat = w.toNat % 16 := by
  simp [opField]
@[simp] theorem rsvField_toNat (w : BitVec 16) : (rsvField w).toNat = w.toNat / 16 % 16 := by
  simp [rsvField, Nat.shiftRight_eq_div_pow]
@[simp] theorem nField_toNat (w : BitVec 16) : (nField w).toNat = w.toNat / 256 := by
  have := w.isLt
  simp only [nField, BitVec.extractLsb'_toNat, Nat.shiftRight_eq_div_pow]
  omega

/-- The index operand of a well-formed command fits the field `n` (30_encoding R72, R73). -/
theorem indexOperand_lt {i : Instr} (hi : i.wellFormed = true) : indexOperand i < 256 := by
  cases i with
  | setbit n => exact Laws.CommandFields.index_lt hi
  | testbit n => exact Laws.CommandFields.index_lt hi
  | clrbit n => exact Laws.CommandFields.index_lt hi
  | _ => decide

/-- The word `w` carries the command `i` in its three fields (30_encoding R71 to R73). -/
structure Carries (w : BitVec 16) (i : Instr) : Prop where
  wellFormed : i.wellFormed = true
  op : opField w = opcode i
  rsv : rsvField w = 0
  index : (nField w).toNat = indexOperand i

/-- The word of a well-formed command carries it. -/
theorem carries_encode {i : Instr} (hi : i.wellFormed = true) : Carries (encode i) i := by
  obtain ⟨hop, hrsv, hn⟩ := Laws.CommandFields.of_parts (indexOperand_lt hi) hi
  exact ⟨hi, hop, hrsv, hn⟩

/-- A word is its three fields put together (30_encoding R71). -/
theorem fields_append (w : BitVec 16) : nField w ++ (rsvField w ++ opField w) = w := by
  calc nField w ++ (rsvField w ++ opField w)
      = nField w ++ w.extractLsb' 0 8 :=
        congrArg _ (BitVec.extractLsb'_append_extractLsb'_eq_extractLsb' rfl)
    _ = w.extractLsb' 0 16 := BitVec.extractLsb'_append_extractLsb'_eq_extractLsb' rfl
    _ = w := BitVec.extractLsb'_eq_self

/-- The word that carries a command is its encoding. -/
theorem Carries.encode_eq {w : BitVec 16} {i : Instr} (h : Carries w i) : encode i = w := by
  have hn : BitVec.ofNat 8 (indexOperand i) = nField w := by
    rw [← h.index, BitVec.ofNat_toNat, BitVec.setWidth_eq]
  have hrsv : 0#4 = rsvField w := h.rsv.symm
  rw [encode, hn, hrsv, ← h.op, fields_append]

/-- Format B asks for `rsv` 0 and takes any `n` (30_encoding R72). -/
theorem decodeBitCommand_eq_ok_iff {build : Nat → Instr} {w : BitVec 16} {i : Instr} :
    decodeBitCommand build w = .ok i ↔ rsvField w = 0 ∧ build (nField w).toNat = i := by
  unfold decodeBitCommand
  split <;> simp_all

/-- Formats U and P ask for `rsv` and `n` 0 (30_encoding R73). -/
theorem decodePlainCommand_eq_ok_iff {j : Instr} {w : BitVec 16} {i : Instr} :
    decodePlainCommand j w = .ok i ↔ rsvField w = 0 ∧ nField w = 0 ∧ j = i := by
  unfold decodePlainCommand
  split
  · split <;> simp_all
  · simp_all

/-- A word that format B accepts carries the command. -/
theorem carries_of_decodeBitCommand {build : Nat → Instr} {w : BitVec 16} {i : Instr}
    (h : decodeBitCommand build w = .ok i) (hop : ∀ n, (opField w).toNat = (opcode (build n)).toNat)
    (hwf : ∀ n, (build n).wellFormed = indexEncodable n)
    (hindex : ∀ n, indexOperand (build n) = n) : Carries w i := by
  obtain ⟨hrsv, rfl⟩ := decodeBitCommand_eq_ok_iff.1 h
  exact ⟨(hwf _).trans (decide_eq_true (nField w).isLt), BitVec.eq_of_toNat_eq (hop _), hrsv,
    (hindex _).symm⟩

/-- A word that formats U and P accept carries the command. -/
theorem carries_of_decodePlainCommand {j : Instr} {w : BitVec 16} {i : Instr}
    (h : decodePlainCommand j w = .ok i) (hop : (opField w).toNat = (opcode j).toNat)
    (hwf : j.wellFormed = true) (hindex : indexOperand j = 0) : Carries w i := by
  obtain ⟨hrsv, hn, rfl⟩ := decodePlainCommand_eq_ok_iff.1 h
  exact ⟨hwf, BitVec.eq_of_toNat_eq hop, hrsv, by rw [hn, hindex]; rfl⟩

/-- A word that decodes to a command carries it (30_encoding R81). -/
theorem carries_of_decode {w : BitVec 16} {i : Instr} (h : decode w = .ok i) : Carries w i := by
  unfold decode at h
  split at h
  iterate 3
    next hop => exact carries_of_decodeBitCommand h (fun _ => hop) (fun _ => rfl) (fun _ => rfl)
  iterate 8
    next hop => exact carries_of_decodePlainCommand h hop rfl rfl
  · cases h

/-- A word that carries a command decodes to it (30_encoding R81). -/
theorem Carries.decode_eq {w : BitVec 16} {i : Instr} (h : Carries w i) : decode w = .ok i := by
  obtain ⟨-, hop, hrsv, hn⟩ := h
  unfold decode
  rw [hop]
  cases i with
  | setbit n => exact decodeBitCommand_eq_ok_iff.2 ⟨hrsv, congrArg _ hn⟩
  | testbit n => exact decodeBitCommand_eq_ok_iff.2 ⟨hrsv, congrArg _ hn⟩
  | clrbit n => exact decodeBitCommand_eq_ok_iff.2 ⟨hrsv, congrArg _ hn⟩
  | _ => exact decodePlainCommand_eq_ok_iff.2 ⟨hrsv, BitVec.eq_of_toNat_eq hn, rfl⟩

/-- Settles O1: the word of a well-formed command carries it, and a word decodes to what it
carries. -/
theorem decodeUndoesEncode : Obligations.DecodeUndoesEncode :=
  fun _ hi => (carries_encode hi).decode_eq

/-- Settles O2: a word that decodes to a command carries it, and is put together from its fields. -/
theorem encodeUndoesDecode : Obligations.EncodeUndoesDecode := fun _ _ h =>
  have hcarries := carries_of_decode h
  ⟨hcarries.wellFormed, hcarries.encode_eq⟩

/-- The number of a well-formed command's word (30_encoding R71). -/
theorem encode_toNat {i : Instr} (hi : i.wellFormed = true) :
    (encode i).toNat = indexOperand i * 256 + (opcode i).toNat := by
  obtain ⟨-, hop, hrsv, hn⟩ := carries_encode hi
  have hmid : (encode i).toNat / 16 % 16 = 0 := by
    rw [← rsvField_toNat, hrsv]
    rfl
  rw [← hn, ← hop, nField_toNat, opField_toNat]
  omega

/-- What the decoder accepts, in one equation between numbers (30_encoding R77, R81). -/
theorem decode_eq_ok_iff {w : BitVec 16} {i : Instr} :
    decode w = .ok i ↔
      i.wellFormed = true ∧ w.toNat = indexOperand i * 256 + (opcode i).toNat := by
  constructor
  · intro h
    obtain ⟨hi, rfl⟩ := encodeUndoesDecode w i h
    exact ⟨hi, encode_toNat hi⟩
  · rintro ⟨hi, hw⟩
    rw [BitVec.eq_of_toNat_eq (hw.trans (encode_toNat hi).symm)]
    exact decodeUndoesEncode i hi

/-! ### The opcode map -/

/-- A row of format B selects the words whose low byte is its pattern (30_encoding R77). -/
theorem selects_lowByte (p : BitVec 16) (build : Nat → Instr) (w : BitVec 16) :
    (OpcodeRow.mk 0x00FF p build).selects w = true ↔ w.toNat % 256 = p.toNat := by
  rw [OpcodeRow.selects, beq_iff_eq, ← BitVec.toNat_inj, BitVec.toNat_and]
  exact Eq.congr_left (Nat.and_two_pow_sub_one_eq_mod w.toNat 8)

/-- A row of formats U and P selects its pattern alone (30_encoding R77). -/
theorem selects_word (p : BitVec 16) (build : Nat → Instr) (w : BitVec 16) :
    (OpcodeRow.mk 0xFFFF p build).selects w = true ↔ w.toNat = p.toNat := by
  rw [OpcodeRow.selects, beq_iff_eq, BitVec.toNat_inj]
  exact Eq.congr_left BitVec.and_allOnes

/-- A word that selects a row has the opcode of the row's pattern: every mask covers `op`. -/
theorem opField_of_selects {r : OpcodeRow} (hr : r ∈ opcodeMap) {w : BitVec 16}
    (h : r.selects w = true) : opField r.pattern = opField w := by
  have hmask : ∀ r ∈ opcodeMap, opField r.mask = BitVec.allOnes 4 := by decide
  calc opField r.pattern = opField (w &&& r.mask) := by rw [← beq_iff_eq.1 h]
    _ = opField w &&& opField r.mask := BitVec.extractLsb'_and
    _ = opField w := by rw [hmask r hr, BitVec.and_allOnes]

/-- At most one row matches any word: the rows' opcodes differ (30_encoding R77). -/
theorem selected_rows_le_one (w : BitVec 16) :
    (opcodeMap.filter (fun r => r.selects w)).length ≤ 1 := by
  have hdistinct : (opcodeMap.map (fun r => opField r.pattern)).Nodup := by decide
  have hselected := hdistinct.sublist
    (List.filter_sublist (p := fun r : OpcodeRow => r.selects w) |>.map fun r => opField r.pattern)
  have hsame : (opcodeMap.filter (fun r => r.selects w)).map (fun r => opField r.pattern) =
      List.replicate (opcodeMap.filter (fun r => r.selects w)).length (opField w) := by
    refine List.map_eq_replicate_iff.2 fun r hr => ?_
    obtain ⟨hmem, hsel⟩ := List.mem_filter.1 hr
    exact opField_of_selects hmem hsel
  rwa [hsame, List.nodup_replicate] at hselected

/-- A number below 2^16 is its high byte and its low byte (30_encoding R71). -/
theorem eq_byte_pair_iff {k n lo : Nat} (hk : k < 2 ^ 16) (hlo : lo < 256) :
    n < 256 ∧ k = n * 256 + lo ↔ k % 256 = lo ∧ n = k / 256 := by
  omega

/-- Settles O3: row by row, the words a row selects are those whose number is the command's. -/
theorem decodeFollowsOpcodeMap : Obligations.DecodeFollowsOpcodeMap := by
  refine ⟨fun w i => ?_, selected_rows_le_one⟩
  rw [decode_eq_ok_iff]
  simp only [opcodeMap, List.mem_cons, List.not_mem_nil, or_false, exists_eq_or_imp,
    exists_eq_left, selects_lowByte, selects_word]
  cases i with
  | setbit n =>
    simpa [Instr.wellFormed, indexEncodable, indexOperand, opcode] using
      eq_byte_pair_iff (lo := 1) w.isLt (by decide)
  | testbit n =>
    simpa [Instr.wellFormed, indexEncodable, indexOperand, opcode] using
      eq_byte_pair_iff (lo := 2) w.isLt (by decide)
  | clrbit n =>
    simpa [Instr.wellFormed, indexEncodable, indexOperand, opcode] using
      eq_byte_pair_iff (lo := 3) w.isLt (by decide)
  | _ => simp [Instr.wellFormed, indexOperand, opcode]

/-! ### The decoder's procedure -/

/-- A word decodes to the command its numeric fields name (30_encoding R78, R81). -/
theorem decode_of_fields {w : BitVec 16} {i : Instr} (hi : i.wellFormed = true)
    (hop : w.toNat % 16 = (opcode i).toNat) (hrsv : w.toNat / 16 % 16 = 0)
    (hn : w.toNat / 256 = indexOperand i) : decode w = .ok i :=
  decode_eq_ok_iff.2 ⟨hi, by omega⟩

/-- The opcodes run from 1 to 11, and from 4 on a command has no index operand (30_encoding R77). -/
theorem opcode_range (i : Instr) :
    0 < (opcode i).toNat ∧ (opcode i).toNat < 12 ∧ (4 ≤ (opcode i).toNat → indexOperand i = 0) := by
  cases i <;> simp [opcode, indexOperand]

/-- Settles O4: a command's fields determine its word, and no command has the fields of the last
clause. -/
theorem decoderProcedure : Obligations.DecoderProcedure := by
  intro w
  have hbyte : indexEncodable (w.toNat / 256) = true := decide_eq_true (by omega)
  refine ⟨fun hop hrsv => decode_of_fields hbyte hop hrsv rfl,
    fun hop hrsv => decode_of_fields hbyte hop hrsv rfl,
    fun hop hrsv => decode_of_fields hbyte hop hrsv rfl,
    decode_of_fields (i := .idx1) rfl, decode_of_fields (i := .idx2) rfl,
    decode_of_fields (i := .idx3) rfl, decode_of_fields (i := .idx4) rfl,
    decode_of_fields (i := .pte2pa) rfl, decode_of_fields (i := .map) rfl,
    decode_of_fields (i := .access) rfl, decode_of_fields (i := .walk) rfl,
    fun hillegal => ?_⟩
  cases hd : decode w with
  | error e => exact ⟨e, rfl⟩
  | ok i =>
    obtain ⟨hi, hw⟩ := decode_eq_ok_iff.1 hd
    have hn := indexOperand_lt hi
    obtain ⟨hpos, hlt, hplain⟩ := opcode_range i
    omega

/-- Settles O5: each word is closed, and the decoder computes. -/
theorem decodedWords : Obligations.DecodedWords := by
  unfold Obligations.DecodedWords
  decide

end Sys2Proof
end

section
/-! The caller's side of the encoding: listings and the flag pseudo-instructions (30_encoding R82,
R83). -/

namespace Sys2Proof.Machine

/-! ### Listings -/

/-- A line assembles to a command exactly when it is well formed, both operands substitute, and the
command is its word with them (30_encoding R82). -/
theorem assembleLine_eq_some_iff {answers : List Response} {l : ListingLine} {c : Command} :
    assembleLine answers l = some c ↔
      l.instr.wellFormed = true ∧ substituteOperand answers l.a = some c.a ∧
        substituteOperand answers l.b = some c.b ∧ encode l.instr = c.cmd := by
  obtain ⟨cmd, a, b⟩ := c
  unfold assembleLine
  split
  · next x y hx hy => simp [hx, hy, and_comm, and_assoc]
  · next hnone => exact ⟨nofun, fun ⟨_, ha, hb, _⟩ => absurd hb (hnone a b ha)⟩

/-- A line with an operand that does not substitute is ill formed (30_encoding R82). -/
theorem assembleLine_of_operand_none {answers : List Response} {l : ListingLine}
    {o : ListingOperand} (ho : l.a = o ∨ l.b = o) (hnone : substituteOperand answers o = none) :
    assembleLine answers l = none := by
  refine Option.eq_none_iff_forall_ne_some.2 fun c hc => ?_
  obtain ⟨-, ha, hb, -⟩ := assembleLine_eq_some_iff.1 hc
  obtain rfl | rfl := ho
  · simp [hnone] at ha
  · simp [hnone] at hb

/-- `%k` stands for the result of line `k`, where that line was answered (30_encoding R82). -/
theorem substituteOperand_resultOf_succ {answers : List Response} {k : Nat} {r : Response}
    (hr : answers[k]? = some r) : substituteOperand answers (.resultOf (k + 1)) = r.result := by
  simp [substituteOperand, hr]

/-- `%k` stands for nothing where `k` is 0 or no line answered so far (30_encoding R82). -/
theorem substituteOperand_resultOf_none {answers : List Response} {k : Nat}
    (hk : k = 0 ∨ answers.length < k) : substituteOperand answers (.resultOf k) = none := by
  cases k with
  | zero => rfl
  | succ k =>
    have hlen : answers.length ≤ k := by omega
    simp [substituteOperand, hlen]

/-- Settles O7: a line assembles as its command's word, which decodes to the command again. -/
theorem assembledLineIsItsCommand : Obligations.AssembledLineIsItsCommand := by
  intro answers l
  refine ⟨fun c hc => ?_, fun a b hi ha hb => assembleLine_eq_some_iff.2 ⟨hi, ha, hb, rfl⟩,
    fun _ => rfl, fun k r v hr hv => (substituteOperand_resultOf_succ hr).trans hv,
    fun k r ho hr hv =>
      assembleLine_of_operand_none ho ((substituteOperand_resultOf_succ hr).trans hv),
    fun k ho hk => assembleLine_of_operand_none ho (substituteOperand_resultOf_none hk)⟩
  obtain ⟨hi, ha, hb, hcmd⟩ := assembleLine_eq_some_iff.1 hc
  exact ⟨hcmd ▸ decodeUndoesEncode l.instr hi, ha, hb⟩

/-! ### One bit of a word -/

/-- Bit `m` of `1 << n` (40_flag_decoder R91). -/
theorem testBit_bitMask {n : Nat} (hn : n < 64) (m : Nat) : testBit (bitMask n) m = (m == n) := by
  calc testBit (bitMask n) m = (decide (n < 64) && decide (n = m)) := BitVec.getLsbD_twoPow n m
    _ = decide (n = m) := by rw [decide_eq_true hn, Bool.true_and]
    _ = (m == n) := decide_eq_decide.2 eq_comm

/-- A set bit is 1, and every other bit is as before (40_flag_decoder R91, R95). -/
theorem testBit_setBit {n : Nat} (hn : n < 64) (v : Word) (m : Nat) :
    testBit (setBit v n) m = (m == n || testBit v m) := by
  calc testBit (setBit v n) m = (testBit v m || testBit (bitMask n) m) := BitVec.getLsbD_or
    _ = (m == n || testBit v m) := by rw [testBit_bitMask hn, Bool.or_comm]

/-- A cleared bit is 0, and every other bit is as before (40_flag_decoder R94, R95). -/
theorem testBit_clearBit {n m : Nat} (hn : n < 64) (hm : m < 64) (v : Word) :
    testBit (clearBit v n) m = (m != n && testBit v m) := by
  calc testBit (clearBit v n) m = (testBit v m && testBit (~~~ bitMask n) m) := BitVec.getLsbD_and
    _ = (testBit v m && !testBit (bitMask n) m) := by simp [testBit, hm]
    _ = (m != n && testBit v m) := by rw [testBit_bitMask hn, Bool.and_comm]; rfl

/-- A bit command with a legal index answers its value (40_flag_decoder R91 to R94). -/
theorem answerValue_bitCommand {i : Instr} {n : Nat} {f : Word → Word} (hn : n < 64)
    (hexec : ∀ s, exec i s = .next (bitCommand n f s)) (a b : Word) (s : State) :
    answerValue i a b s = some (f a) := by
  have hanswer : answer i a b s = some ⟨statusCode .ok, 0, some (f a)⟩ :=
    answer_of_exec (hexec _) (by rw [bitCommand_legal f _ hn, respond_responses])
  rw [answerValue, hanswer]
  rfl

/-! ### The flag pseudo-instructions -/

/-- A flag stands for a legal bit index (40_flag_decoder R90). -/
theorem flagPosition_lt (f : Flag) : flagPosition f < 64 := by
  cases f <;> decide

/-- Different flags stand at different positions (40_flag_decoder R90). -/
theorem flagPosition_beq (f g : Flag) : (flagPosition g == flagPosition f) = (g == f) := by
  cases f <;> cases g <;> rfl

/-- `setflag` sets the named flag and no other (30_encoding R83). -/
theorem flagOf_setBit (f g : Flag) (a : Word) :
    flagOf g (setBit a (flagPosition f)) = (g == f || flagOf g a) := by
  rw [flagOf, testBit_setBit (flagPosition_lt f), flagPosition_beq, flagOf]

/-- `clrflag` clears the named flag and no other (30_encoding R83). -/
theorem flagOf_clearBit (f g : Flag) (a : Word) :
    flagOf g (clearBit a (flagPosition f)) = (g != f && flagOf g a) := by
  rw [flagOf, testBit_clearBit (flagPosition_lt f) (flagPosition_lt g), bne, flagPosition_beq,
    flagOf, bne]

/-- Settles O6: each pseudo-instruction is the bit command at the flag's position, which answers in
every state by operand `A` alone. -/
theorem flagCommandsActOnNamedFlag : Obligations.FlagCommandsActOnNamedFlag := by
  refine ⟨by decide, fun f g a b s => ?_⟩
  have hf := flagPosition_lt f
  exact ⟨_, _, answerValue_bitCommand (i := setflag f) hf (fun _ => rfl) a b s, flagOf_setBit f g a,
    answerValue_bitCommand (i := clrflag f) hf (fun _ => rfl) a b s, flagOf_clearBit f g a,
    answerValue_bitCommand (i := testflag f) hf (fun _ => rfl) a b s⟩

end Sys2Proof.Machine
end

section
/-! One response for every command word, and the operand that no command but PTE2PA and WALK reads
(30_encoding R74, R79). -/

namespace Sys2Proof.Machine

/-! ### Responses -/

/-- An illegal word on the port is answered ILLEGAL_CMD (60_exceptions R184). -/
theorem runPort_of_decode_error {s : State} {e : DecodeError}
    (hdec : decode s.port.cmd = .error e) :
    runPort s = .next (respond .illegalCmd 0 none s) := by
  simp only [runPort, hdec, raiseIllegalCommand_eq]

/-- The step of an illegal word drives the port and answers ILLEGAL_CMD (60_exceptions R184). -/
theorem step_of_illegal {s : State} {c : Command} {rest : List Input} {e : DecodeError}
    (hin : s.inputs = .command c :: rest) (hdec : decode c.cmd = .error e) :
    step s = .next (respond .illegalCmd 0 none (present c rest s)) :=
  (step_of_command hin).trans (runPort_of_decode_error hdec)

/-- Settles O9: the response is the whole effect. -/
theorem illegalCommandAnswered : Obligations.IllegalCommandAnswered :=
  fun _ _ _ _ hin hdec => step_of_illegal hin hdec

/-- `t` is `s` with one more response, of the shape given. -/
def RespondsWith (shape : Response → Prop) (s t : State) : Prop :=
  ∃ r, t.responses = s.responses ++ [r] ∧ shape r

/-- A bit command answers a value or BAD_BITPOS (40_flag_decoder R93). -/
theorem bitCommand_respondsWith (n : Nat) (f : Word → Word) (s : State) :
    RespondsWith (fun r => (∃ v, r = ⟨0, 0, some v⟩) ∨ r = ⟨3, 0, none⟩) s (bitCommand n f s) := by
  rcases Nat.lt_or_ge n 64 with hn | hn
  · rw [bitCommand_legal f s hn]
    exact ⟨_, respond_responses .., .inl ⟨_, rfl⟩⟩
  · rw [bitCommand_illegal f s hn]
    exact ⟨_, respond_responses .., .inr rfl⟩

/-- An index command answers a value (41_address_translator R105). -/
theorem respondIndex_respondsWith (k : Level) (s : State) :
    RespondsWith (fun r => ∃ v, r = ⟨0, 0, some v⟩) s (respondIndex k s) :=
  ⟨_, respond_responses .., _, rfl⟩

/-- PTE2PA answers a value or PAGE_FAULT with info 0 (41_address_translator R107, R108). -/
theorem respondPhysical_respondsWith (pte va : Word) (s : State) :
    RespondsWith (fun r => (∃ v, r = ⟨0, 0, some v⟩) ∨ r = ⟨1, 0, none⟩) s
      (respondPhysical pte va s) := by
  cases hp : isPresent pte with
  | true =>
    rw [respondPhysical_present va s hp]
    exact ⟨_, respond_responses .., .inl ⟨_, rfl⟩⟩
  | false =>
    rw [respondPhysical_absent va s hp]
    exact ⟨_, respond_responses .., .inr rfl⟩

/-- MAP and ACCESS answer OK with an outcome code and no result (42_frame_table R130). -/
theorem commitAnswer_respondsWith (m : MapAnswer) (s : State) :
    RespondsWith (fun r => r.status = 0 ∧ r.info.toNat ≤ 3 ∧ r.result = none) s
      (commitAnswer m s) := by
  have hcode : (outcomeCode m.outcome).toNat ≤ 3 := by cases m.outcome <;> decide
  exact ⟨_, commitAnswer_responses m s, rfl, hcode, rfl⟩

/-- The level a page fault reports is not 0, which is PTE2PA's info (45_walker R167). -/
theorem one_le_levelNumber (k : Level) : 1 ≤ (BitVec.ofNat 3 (levelNumber k)).toNat := by
  cases k <;> decide

/-- WALK answers a value or PAGE_FAULT with the level (45_walker R166, R167). -/
theorem walkCommand_respondsWith (s : State) :
    RespondsWith (fun r => (∃ v, r = ⟨0, 0, some v⟩) ∨
      (r.status = 1 ∧ 1 ≤ r.info.toNat ∧ r.info.toNat ≤ 4 ∧ r.result = none)) s
      (walkCommand s) := by
  unfold walkCommand
  dsimp only
  cases (walkLevels s.store s.port.a walkOrder s.port.b).ended with
  | ok pte => exact ⟨_, respond_responses .., .inl ⟨_, rfl⟩⟩
  | error k =>
    exact ⟨_, respond_responses .., .inr ⟨rfl, one_le_levelNumber k, levelNumber_le_four k, rfl⟩⟩

/-- Settles O14: an illegal word is answered by the step, a legal one by its command. -/
theorem oneResponsePerCommand : Obligations.OneResponsePerCommand := by
  intro s c rest hin
  cases hdec : decode c.cmd with
  | error e => exact ⟨_, _, step_of_illegal hin hdec, respond_responses .., rfl⟩
  | ok i =>
    have hstep {shape : Response → Prop} {t : State} (hexec : exec i (present c rest s) = .next t)
        (ht : RespondsWith shape (present c rest s) t) :
        ∃ t r, step s = .next t ∧ t.responses = s.responses ++ [r] ∧ shape r := by
      obtain ⟨r, hr, hshape⟩ := ht
      exact ⟨t, r, (stepPerformsPresentedCommand s c rest i hin hdec).trans hexec, hr, hshape⟩
    cases i with
    | setbit n | testbit n | clrbit n => exact hstep rfl (bitCommand_respondsWith n _ _)
    | idx1 | idx2 | idx3 | idx4 => exact hstep rfl (respondIndex_respondsWith _ _)
    | pte2pa => exact hstep rfl (respondPhysical_respondsWith _ _ _)
    | map | access => exact hstep rfl (commitAnswer_respondsWith _ _)
    | walk => exact hstep rfl (walkCommand_respondsWith _)

/-! ### Operand `B` -/

/-- The state with another operand `B` on the port. -/
def withB (b : Word) (s : State) : State := { s with port := { s.port with b := b } }

/-- A bit command does not read `B` (30_encoding R79). -/
theorem bitCommand_withB (n : Nat) (f : Word → Word) (b : Word) (s : State) :
    bitCommand n f (withB b s) = withB b (bitCommand n f s) := by
  rcases Nat.lt_or_ge n 64 with hn | hn
  · rw [bitCommand_legal f _ hn, bitCommand_legal f s hn]
    rfl
  · rw [bitCommand_illegal f _ hn, bitCommand_illegal f s hn]
    rfl

/-- Settles O21: what each command does with operand `A` commutes with a change of `B`. -/
theorem ignoredOperandHasNoEffect : Obligations.IgnoredOperandHasNoEffect := by
  intro i hpte2pa hwalk s b
  cases i with
  | setbit n | testbit n | clrbit n =>
    exact ⟨_, rfl, congrArg Host.Outcome.next (bitCommand_withB n _ b s)⟩
  | idx1 | idx2 | idx3 | idx4 | map | access => exact ⟨_, rfl, rfl⟩
  | pte2pa => exact absurd rfl hpte2pa
  | walk => exact absurd rfl hwalk

end Sys2Proof.Machine
end

section
/-! The flag decoder: the words of the three bit commands, what each does and answers, the answer to
an index above 63, and the laws of one bit that R95 lists (40_flag_decoder R91 to R95). -/

namespace Sys2Proof

/-- A command's number, as a word, decodes to the command (30_encoding R71, R77). -/
theorem decode_commandNumber {i : Instr} (hi : i.wellFormed = true) :
    decode (BitVec.ofNat 16 (indexOperand i * 256 + (opcode i).toNat)) = .ok i := by
  rw [← encode_toNat hi, BitVec.ofNat_toNat, BitVec.setWidth_eq]
  exact decodeUndoesEncode i hi

end Sys2Proof

namespace Sys2Proof.Machine

/-! ### The outcome of a bit command -/

/-- SETBIT is a bit command (40_flag_decoder R91). -/
theorem exec_setbit (n : Nat) (s : State) :
    exec (.setbit n) s = .next (bitCommand n (fun a => setBit a n) s) := rfl

/-- TESTBIT is a bit command (40_flag_decoder R92). -/
theorem exec_testbit (n : Nat) (s : State) :
    exec (.testbit n) s = .next (bitCommand n (fun a => boolWord (testBit a n)) s) := rfl

/-- CLRBIT is a bit command (40_flag_decoder R94). -/
theorem exec_clrbit (n : Nat) (s : State) :
    exec (.clrbit n) s = .next (bitCommand n (fun a => clearBit a n) s) := rfl

/-- With a legal index the outcome is the value on the response port (40_flag_decoder R91, R92,
R94). -/
theorem exec_bitCommand_legal {i : Instr} {n : Nat} {f : Word → Word} (hn : n < 64)
    (hexec : ∀ s, exec i s = .next (bitCommand n f s)) (s : State) :
    exec i s = .next { s with responses := s.responses ++ [⟨0, 0, some (f s.port.a)⟩] } :=
  (hexec s).trans (congrArg Host.Outcome.next (bitCommand_legal f s hn))

/-- With an index above 63 the outcome is BAD_BITPOS (40_flag_decoder R93). -/
theorem exec_bitCommand_illegal {i : Instr} {n : Nat} {f : Word → Word} (hn : 64 ≤ n)
    (hexec : ∀ s, exec i s = .next (bitCommand n f s)) (s : State) :
    exec i s = .next { s with responses := s.responses ++ [⟨3, 0, none⟩] } :=
  (hexec s).trans (congrArg Host.Outcome.next (bitCommand_illegal f s hn))

/-- A word whose low byte is 1 to 3 runs a bit command with its high byte as the index
(30_encoding R72, R77). -/
theorem exists_bitCommand_of_lowByte {w : BitVec 16} (hlo : 1 ≤ w.toNat % 256)
    (hhi : w.toNat % 256 ≤ 3) :
    ∃ i f, decode w = .ok i ∧ ∀ s, exec i s = .next (bitCommand (w.toNat / 256) f s) := by
  have hbyte : indexEncodable (w.toNat / 256) = true := decide_eq_true (by omega)
  obtain hop | hop | hop : w.toNat % 256 = 1 ∨ w.toNat % 256 = 2 ∨ w.toNat % 256 = 3 := by omega
  · exact ⟨.setbit (w.toNat / 256), _,
      decode_of_fields hbyte (show w.toNat % 16 = 1 by omega) (by omega) rfl, fun _ => rfl⟩
  · exact ⟨.testbit (w.toNat / 256), _,
      decode_of_fields hbyte (show w.toNat % 16 = 2 by omega) (by omega) rfl, fun _ => rfl⟩
  · exact ⟨.clrbit (w.toNat / 256), _,
      decode_of_fields hbyte (show w.toNat % 16 = 3 by omega) (by omega) rfl, fun _ => rfl⟩

/-- Settles O25: the word runs a bit command, whose index check is its first and only test. -/
theorem badBitIndexAnswered : Obligations.BadBitIndexAnswered := by
  intro s c rest hin hlo hhi hn
  obtain ⟨i, f, hdec, hexec⟩ := exists_bitCommand_of_lowByte hlo hhi
  calc step s = exec i (present c rest s) := stepPerformsPresentedCommand s c rest i hin hdec
    _ = _ := exec_bitCommand_illegal hn hexec _

/-- Settles O22: bit by bit, the value is `set_bit` of operand `A`. -/
theorem setbitForcesOneBit : Obligations.SetbitForcesOneBit :=
  ⟨fun n hn => decode_commandNumber (i := .setbit n) (decide_eq_true hn), fun _ s =>
    ⟨fun hn => ⟨_, exec_bitCommand_legal hn (exec_setbit _) s,
        fun m _ => testBit_setBit hn _ m⟩,
      fun hn => exec_bitCommand_illegal hn (exec_setbit _) s⟩⟩

/-- Settles O24: bit by bit, the value is `clear_bit` of operand `A`. -/
theorem clrbitForcesOneBitToZero : Obligations.ClrbitForcesOneBitToZero :=
  ⟨fun n hn => decode_commandNumber (i := .clrbit n) (decide_eq_true hn), fun _ s =>
    ⟨fun hn => ⟨_, exec_bitCommand_legal hn (exec_clrbit _) s,
        fun _ hm => testBit_clearBit hn hm _⟩,
      fun hn => exec_bitCommand_illegal hn (exec_clrbit _) s⟩⟩

/-! ### TESTBIT's boolean -/

/-- `(A >> n) & 1` is bit n as a word, 1 or 0 (40_flag_decoder R92). -/
theorem ushiftRight_and_one (a : Word) (n : Nat) : (a >>> n) &&& 1 = boolWord (testBit a n) := by
  have hbit : (a >>> n).getLsbD 0 = testBit a n := BitVec.getLsbD_ushiftRight a n 0
  calc (a >>> n) &&& 1 = (BitVec.ofBool (testBit a n)).setWidth 64 := by
        rw [← hbit]
        exact BitVec.and_one_eq_setWidth_ofBool_getLsbD
    _ = boolWord (testBit a n) := by cases testBit a n <;> rfl

/-- The word of a boolean is 1 exactly when it is true (40_flag_decoder R92). -/
theorem boolWord_eq_one_iff {p : Bool} : boolWord p = 1 ↔ p = true := by
  cases p <;> decide

/-- PTE2PA answers a physical address exactly for a present entry (41_address_translator R107,
R108). -/
theorem answer_pte2pa_translates_iff (pte va : Word) (s : State) :
    (∃ pa, answer .pte2pa pte va s = some ⟨0, 0, some pa⟩) ↔ isPresent pte = true := by
  rw [answer_pte2pa, pteToPhysical]
  cases isPresent pte with
  | true => exact iff_of_true ⟨_, rfl⟩ rfl
  | false => exact iff_of_false (by simp [physicalResponse]) Bool.false_ne_true

/-! ### The answers of the three bit commands -/

/-- SETBIT answers `set_bit` (40_flag_decoder R91). -/
theorem answerValue_setbit {n : Nat} (hn : n < 64) (v b : Word) (s : State) :
    answerValue (.setbit n) v b s = some (setBit v n) :=
  answerValue_bitCommand hn (exec_setbit _) v b s

/-- CLRBIT answers `clear_bit` (40_flag_decoder R94). -/
theorem answerValue_clrbit {n : Nat} (hn : n < 64) (v b : Word) (s : State) :
    answerValue (.clrbit n) v b s = some (clearBit v n) :=
  answerValue_bitCommand hn (exec_clrbit _) v b s

/-- TESTBIT answers the word of `test_bit` (40_flag_decoder R92). -/
theorem answerValue_testbit {n : Nat} (hn : n < 64) (v b : Word) (s : State) :
    answerValue (.testbit n) v b s = some (boolWord (testBit v n)) :=
  answerValue_bitCommand hn (exec_testbit _) v b s

/-- TESTBIT of PRESENT answers 1 exactly for a present entry (40_flag_decoder R92, R96). -/
theorem answerValue_testbit_present_iff (pte b : Word) (s : State) :
    answerValue (.testbit 0) pte b s = some 1 ↔ isPresent pte = true := by
  rw [answerValue_testbit (by decide), Option.some_inj]
  exact boolWord_eq_one_iff

/-- Settles O23: the value is bit n of operand `A`, and PRESENT is bit 0. -/
theorem testbitReportsOneBit : Obligations.TestbitReportsOneBit := by
  refine ⟨fun n hn => decode_commandNumber (i := .testbit n) (decide_eq_true hn),
    fun n s => ⟨fun hn => ⟨?_, ushiftRight_and_one s.port.a n⟩,
      fun hn => exec_bitCommand_illegal hn (exec_testbit _) s⟩, fun pte va b s => ?_⟩
  · rw [ushiftRight_and_one]
    exact exec_bitCommand_legal hn (exec_testbit _) s
  · exact (answerValue_testbit_present_iff pte b s).trans
      (answer_pte2pa_translates_iff pte va s).symm

/-! ### The laws of one bit (40_flag_decoder R95) -/

/-- Words with the same 64 bits are equal. -/
theorem eq_of_testBit_eq {v w : Word} (h : ∀ k < 64, testBit v k = testBit w k) : v = w :=
  BitVec.eq_of_getLsbD_eq h

/-- SETBIT is idempotent. -/
theorem setBit_setBit_same (v : Word) (n : Nat) : setBit (setBit v n) n = setBit v n := by
  rw [setBit, setBit, BitVec.or_assoc, BitVec.or_self]

/-- CLRBIT is idempotent. -/
theorem clearBit_clearBit_same (v : Word) (n : Nat) :
    clearBit (clearBit v n) n = clearBit v n := by
  rw [clearBit, clearBit, BitVec.and_assoc, BitVec.and_self]

/-- SETBIT absorbs a CLRBIT at the same position. -/
theorem setBit_clearBit_same {n : Nat} (hn : n < 64) (v : Word) :
    setBit (clearBit v n) n = setBit v n :=
  eq_of_testBit_eq fun k hk => by
    rw [testBit_setBit hn, testBit_setBit hn, testBit_clearBit hn hk]
    cases hkn : k == n <;> simp [bne, hkn]

/-- CLRBIT absorbs a SETBIT at the same position. -/
theorem clearBit_setBit_same {n : Nat} (hn : n < 64) (v : Word) :
    clearBit (setBit v n) n = clearBit v n :=
  eq_of_testBit_eq fun k hk => by
    rw [testBit_clearBit hn hk, testBit_clearBit hn hk, testBit_setBit hn]
    cases hkn : k == n <;> simp [bne, hkn]

/-- Two SETBITs commute. -/
theorem setBit_comm (v : Word) (n m : Nat) :
    setBit (setBit v n) m = setBit (setBit v m) n := by
  simp only [setBit, BitVec.or_assoc, BitVec.or_comm (bitMask n) (bitMask m)]

/-- Two CLRBITs commute. -/
theorem clearBit_comm (v : Word) (n m : Nat) :
    clearBit (clearBit v n) m = clearBit (clearBit v m) n := by
  simp only [clearBit, BitVec.and_assoc, BitVec.and_comm (~~~ bitMask n) (~~~ bitMask m)]

/-- SETBIT and CLRBIT commute at different positions. -/
theorem clearBit_setBit_comm {n m : Nat} (hn : n < 64) (hm : m < 64) (hmn : m ≠ n) (v : Word) :
    clearBit (setBit v n) m = setBit (clearBit v m) n :=
  eq_of_testBit_eq fun k hk => by
    rw [testBit_clearBit hm hk, testBit_setBit hn, testBit_setBit hn, testBit_clearBit hm hk]
    by_cases hkn : k = n
    · subst hkn
      simp [hmn.symm]
    · rw [beq_false_of_ne hkn, Bool.false_or, Bool.false_or]

/-- Settles O26: the answers are `set_bit`, `clear_bit` and `test_bit` of operand `A`, and each clause
is a law of these. -/
theorem bitCommandsRoundTrip : Obligations.BitCommandsRoundTrip := by
  intro s v b n m hn hm
  refine ⟨setBit v n, clearBit v n, answerValue_setbit hn .., answerValue_clrbit hn .., ?_, ?_,
    fun hmn => ⟨?_, ?_⟩, ?_, ?_, ?_, ?_, fun hmn sm cm hsm hcm => ?_⟩
  · rw [answerValue_testbit hn, testBit_setBit hn, beq_self_eq_true]
    rfl
  · rw [answerValue_testbit hn, testBit_clearBit hn hn, bne_self_eq_false]
    rfl
  · rw [answerValue_testbit hm, answerValue_testbit hm, testBit_setBit hn, beq_false_of_ne hmn,
      Bool.false_or]
  · rw [answerValue_testbit hm, answerValue_testbit hm, testBit_clearBit hn hm, bne_iff_ne.2 hmn,
      Bool.true_and]
  · rw [answerValue_setbit hn, setBit_setBit_same]
  · rw [answerValue_clrbit hn, clearBit_clearBit_same]
  · rw [answerValue_clrbit hn, clearBit_setBit_same hn]
  · rw [answerValue_setbit hn, setBit_clearBit_same hn]
  · obtain rfl := Option.some.inj ((answerValue_setbit hm v b s).symm.trans hsm)
    obtain rfl := Option.some.inj ((answerValue_clrbit hm v b s).symm.trans hcm)
    rw [answerValue_setbit hm, answerValue_setbit hn, answerValue_clrbit hm, answerValue_setbit hn,
      answerValue_clrbit hm, answerValue_clrbit hn, setBit_comm, clearBit_comm,
      clearBit_setBit_comm hn hm hmn]
    exact ⟨rfl, rfl, rfl⟩

end Sys2Proof.Machine
end

section
/-! The address translator: the words and outcomes of IDX1 to IDX4 and PTE2PA, and the partition of
the low 48 bits into four indices and an offset (41_address_translator R101 to R108). Addresses are
put together by appending their fields, so that each fact about a shifted field is one about
`++`. -/

namespace Sys2Proof.Machine

/-! ### Fields side by side -/

/-- A field put in front of another is OR-ed in above it (20_memory R51, R53). -/
theorem zext64_append {m n : Nat} (hi : BitVec m) (lo : BitVec n) :
    zext64 (hi ++ lo) = zext64 lo ||| zext64 hi <<< n := by
  rw [zext64, BitVec.setWidth_append_eq_shiftLeft_setWidth_or, BitVec.or_comm, zext64, zext64]

/-- The number of a field put in front of another (00_scope R8). -/
theorem toNat_append_eq_add {m n : Nat} (hi : BitVec m) (lo : BitVec n) :
    (hi ++ lo).toNat = hi.toNat * 2 ^ n + lo.toNat := by
  rw [BitVec.toNat_append, ← Nat.shiftLeft_add_eq_or_of_lt lo.isLt, Nat.shiftLeft_eq]

/-- Masking with `2^k - 1` keeps bits k-1:0. -/
theorem and_lowMask {k : Nat} (hk : k ≤ 64) (v : Word) :
    v &&& BitVec.ofNat 64 (2 ^ k - 1) = zext64 (v.extractLsb' 0 k) := by
  have hmask : 2 ^ k - 1 < 2 ^ 64 :=
    (Nat.sub_one_lt (Nat.two_pow_pos k).ne').trans_le (Nat.pow_le_pow_right (by decide) hk)
  apply BitVec.eq_of_toNat_eq
  rw [BitVec.toNat_and, BitVec.toNat_ofNat, Nat.mod_eq_of_lt hmask, Nat.and_two_pow_sub_one_eq_mod,
    zext64, BitVec.toNat_setWidth_of_le hk, BitVec.extractLsb'_toNat, Nat.shiftRight_zero]

/-! ### The index commands -/

/-- An index command answers the index of its level and does nothing else (41_address_translator
R105). -/
theorem exec_index (k : Level) (s : State) :
    exec (indexInstr k) s = .next { s with
      responses := s.responses ++ [⟨0, 0, some (zext64 (indexLevel k s.port.a))⟩] } := by
  cases k <;> rfl

/-- The value of that answer. -/
theorem answerValue_index (k : Level) (a b : Word) (s : State) :
    answerValue (indexInstr k) a b s = some (zext64 (indexLevel k a)) := by
  rw [answerValue, answer_index]
  rfl

/-- An index as arithmetic on the address (41_address_translator R105). -/
theorem zext64_indexLevel (k : Level) (va : Word) :
    zext64 (indexLevel k va) = BitVec.ofNat 64 (va.toNat / 2 ^ indexShift k % 512) := by
  rw [zext64, ← BitVec.ofNat_toNat, indexLevel, BitVec.extractLsb'_toNat,
    Nat.shiftRight_eq_div_pow]

/-- An index is a number 0 to 511 (41_address_translator R101 to R104). -/
theorem zext64_indexLevel_lt (k : Level) (va : Word) : (zext64 (indexLevel k va)).toNat < 512 := by
  rw [zext64, BitVec.toNat_setWidth_of_le (by decide)]
  exact (indexLevel k va).isLt

/-- Settles O27: each word is its command's number, and the index is a quotient's remainder. -/
theorem indexCommandsExtractNineBits : Obligations.IndexCommandsExtractNineBits := by
  refine ⟨⟨decode_commandNumber (i := .idx1) rfl, decode_commandNumber (i := .idx2) rfl,
    decode_commandNumber (i := .idx3) rfl, decode_commandNumber (i := .idx4) rfl⟩, fun s => ?_⟩
  have hexec : ∀ k, exec (indexInstr k) s = .next { s with responses := s.responses ++
      [⟨0, 0, some (BitVec.ofNat 64 (s.port.a.toNat / 2 ^ indexShift k % 512))⟩] } := fun k => by
    rw [exec_index, zext64_indexLevel]
  exact ⟨hexec .one, hexec .two, hexec .three, hexec .four⟩

/-! ### The partition of the low 48 bits (41_address_translator R106) -/

/-- The translated part of an address with these indices and this offset (20_memory R51). -/
def addressOf (index : Level → BitVec 9) (offset : BitVec 12) : BitVec 48 :=
  index .one ++ (index .two ++ (index .three ++ (index .four ++ offset)))

/-- An address's own indices and offset make up its bits 47:0. -/
theorem addressOf_indexLevel (va : Word) :
    addressOf (fun k => indexLevel k va) (pageOffset va) = va.extractLsb' 0 48 := by
  have h4 : indexLevel .four va ++ pageOffset va = va.extractLsb' 0 21 :=
    BitVec.extractLsb'_append_extractLsb'_eq_extractLsb' rfl
  have h3 : indexLevel .three va ++ va.extractLsb' 0 21 = va.extractLsb' 0 30 :=
    BitVec.extractLsb'_append_extractLsb'_eq_extractLsb' rfl
  have h2 : indexLevel .two va ++ va.extractLsb' 0 30 = va.extractLsb' 0 39 :=
    BitVec.extractLsb'_append_extractLsb'_eq_extractLsb' rfl
  have h1 : indexLevel .one va ++ va.extractLsb' 0 39 = va.extractLsb' 0 48 :=
    BitVec.extractLsb'_append_extractLsb'_eq_extractLsb' rfl
  rw [addressOf, h4, h3, h2, h1]

/-- The fields of an address OR-ed together at their places (41_address_translator R106). -/
theorem zext64_addressOf (index : Level → BitVec 9) (offset : BitVec 12) :
    zext64 (addressOf index offset) =
      zext64 offset ||| zext64 (index .four) <<< 12 ||| zext64 (index .three) <<< 21 |||
        zext64 (index .two) <<< 30 ||| zext64 (index .one) <<< 39 := by
  simp only [addressOf, zext64_append]

/-- Shifted back to their places, the four indices and the offset are bits 47:0
(41_address_translator R106). -/
theorem rebuild_address (va : Word) :
    (va &&& 0xFFF#64) ||| zext64 (indexLevel .four va) <<< 12 |||
        zext64 (indexLevel .three va) <<< 21 ||| zext64 (indexLevel .two va) <<< 30 |||
        zext64 (indexLevel .one va) <<< 39 = va &&& 0xFFFFFFFFFFFF#64 := by
  have hoff : va &&& 0xFFF#64 = zext64 (pageOffset va) := and_offsetMask va
  have hlow : va &&& 0xFFFFFFFFFFFF#64 = zext64 (va.extractLsb' 0 48) :=
    and_lowMask (k := 48) (by decide) va
  rw [hoff, hlow, ← addressOf_indexLevel, zext64_addressOf]

/-- The offset of a composed address. -/
theorem pageOffset_addressOf (index : Level → BitVec 9) (offset : BitVec 12) :
    pageOffset (zext64 (addressOf index offset)) = offset := by
  rw [pageOffset, zext64, BitVec.extractLsb'_setWidth_of_le (by decide), addressOf]
  iterate 3 rw [BitVec.extractLsb'_append_eq_of_add_le (by decide)]
  exact BitVec.extractLsb'_append_eq_right

/-- The indices of a composed address: each takes any value, whatever the others are. -/
theorem indexLevel_addressOf (index : Level → BitVec 9) (offset : BitVec 12) (k : Level) :
    indexLevel k (zext64 (addressOf index offset)) = index k := by
  rw [indexLevel, zext64, BitVec.extractLsb'_setWidth_of_le (by cases k <;> decide), addressOf]
  cases k with
  | one => exact BitVec.extractLsb'_append_eq_left
  | two =>
    rw [BitVec.extractLsb'_append_eq_of_add_le (by decide)]
    exact BitVec.extractLsb'_append_eq_left
  | three =>
    iterate 2 rw [BitVec.extractLsb'_append_eq_of_add_le (by decide)]
    exact BitVec.extractLsb'_append_eq_left
  | four =>
    iterate 3 rw [BitVec.extractLsb'_append_eq_of_add_le (by decide)]
    exact BitVec.extractLsb'_append_eq_left

/-- Four indices by level. -/
def indexTable (j1 j2 j3 j4 : BitVec 9) : Level → BitVec 9
  | .one => j1
  | .two => j2
  | .three => j3
  | .four => j4

/-- Settles O28: the answers are the indices, which with the offset make up bits 47:0; and a
composed address has the indices it is composed of. -/
theorem indicesPartitionTheAddress : Obligations.IndicesPartitionTheAddress := by
  intro s
  refine ⟨fun va b => ?_, fun j1 j2 j3 j4 o => ?_, fun va wa b hoff h1 h2 h3 h4 => ?_⟩
  · exact ⟨_, _, _, _, answerValue_index .one va b s, answerValue_index .two va b s,
      answerValue_index .three va b s, answerValue_index .four va b s,
      zext64_indexLevel_lt .one va, zext64_indexLevel_lt .two va, zext64_indexLevel_lt .three va,
      zext64_indexLevel_lt .four va, rebuild_address va⟩
  · have hanswer : ∀ b k, answerValue (indexInstr k) (zext64 (addressOf (indexTable j1 j2 j3 j4) o))
        b s = some (zext64 (indexTable j1 j2 j3 j4 k)) := fun b k => by
      rw [answerValue_index, indexLevel_addressOf]
    exact ⟨_, pageOffset_addressOf (indexTable j1 j2 j3 j4) o, fun b =>
      ⟨hanswer b .one, hanswer b .two, hanswer b .three, hanswer b .four⟩⟩
  · have hindex : ∀ k, answerValue (indexInstr k) va b s = answerValue (indexInstr k) wa b s →
        zext64 (indexLevel k va) = zext64 (indexLevel k wa) := fun k h => by
      rwa [answerValue_index, answerValue_index, Option.some_inj] at h
    rw [← rebuild_address va, ← rebuild_address wa, hoff, hindex .one h1, hindex .two h2,
      hindex .three h3, hindex .four h4]

/-! ### PTE2PA -/

/-- PTE2PA asks `pte_to_physical` of its two operands (41_address_translator R107). -/
theorem exec_pte2pa (s : State) :
    exec .pte2pa s = .next (respondPhysical s.port.a s.port.b s) := rfl

/-- A physical address is the frame number in front of the page offset (20_memory R53). -/
theorem physicalAddress_eq_append (pte va : Word) :
    physicalAddress pte va = zext64 (frameNumber pte ++ pageOffset va) := by
  rw [physicalAddress, and_offsetMask, zext64_append, BitVec.or_comm]

/-- A physical address as arithmetic: frame number times 4096 plus offset (20_memory R53). -/
theorem physicalAddress_toNat (pte va : Word) :
    (physicalAddress pte va).toNat = pte.toNat / 4096 % 2 ^ 40 * 4096 + va.toNat % 4096 := by
  rw [physicalAddress_eq_append, zext64, BitVec.toNat_setWidth_of_le (by decide),
    toNat_append_eq_add, frameNumber, pageOffset, BitVec.extractLsb'_toNat,
    BitVec.extractLsb'_toNat, Nat.shiftRight_eq_div_pow, Nat.shiftRight_zero]
  rfl

/-- Settles O29: bit 0 of the entry is PRESENT, the one thing that decides between an address and a
fault. -/
theorem pte2paRebuildsAddressOrFaults : Obligations.Pte2paRebuildsAddressOrFaults := by
  refine ⟨decode_commandNumber (i := .pte2pa) rfl, fun s => ⟨fun hpresent => ?_, fun habsent => ?_⟩⟩
  · exact ⟨_, congrArg Host.Outcome.next (respondPhysical_present _ s hpresent),
      physicalAddress_toNat _ _⟩
  · exact congrArg Host.Outcome.next (respondPhysical_absent _ s habsent)

end Sys2Proof.Machine
end

section
/-! MAP and ACCESS case by case: which case is taken, what it answers, and what becomes of the slots
(42_frame_table R124 to R132). -/

namespace Sys2Proof.Machine

/-- Settles O41: both commands commit what the policy makes of operand `A`. -/
theorem mapAndAccessCoincide : Obligations.MapAndAccessCoincide := fun s =>
  (exec_mapOrAccess (.inl rfl) s).trans (exec_mapOrAccess (.inr rfl) s).symm

/-! ### The case taken -/

/-- The sentinel is ignored (42_frame_table R124). -/
theorem MapsTo.eq_ignored {p : Policy} {va : Word} {t : FrameTable} {m : MapAnswer}
    (hm : MapsTo p va t m) (hzero : va = 0) : m = answerIgnored t := by
  cases hm with
  | ignored => rfl
  | hit _ hva | loaded hva | replaced hva => exact absurd hzero hva

/-- A resident address is a hit in a slot that holds it (42_frame_table R130). -/
theorem MapsTo.eq_hit {p : Policy} {va : Word} {t : FrameTable} {m : MapAnswer}
    (hm : MapsTo p va t m) (hva : va ≠ 0) {k : Fin 8} (hk : (t.slot k).va = va) :
    ∃ i, (t.slot i).va = va ∧ m = answerHit (afterHit p i t) := by
  cases hm with
  | ignored hzero => exact absurd hzero hva
  | hit i _ hi => exact ⟨i, hi, rfl⟩
  | loaded _ hmiss | replaced _ hmiss => exact absurd hk (hmiss k)

/-- A miss with free capacity is an insertion (42_frame_table R128). -/
theorem MapsTo.eq_loaded {p : Policy} {va : Word} {t : FrameTable} {m : MapAnswer}
    (hm : MapsTo p va t m) (hva : va ≠ 0) (hmiss : ∀ j : Fin 8, (t.slot j).va ≠ va)
    (hroom : t.isFull = false) : m = answerLoaded va (freshRef p) t := by
  cases hm with
  | ignored hzero => exact absurd hzero hva
  | hit i _ hi => exact absurd hi (hmiss i)
  | loaded => rfl
  | replaced _ _ hfull => simp [hroom] at hfull

/-- A miss on a full table is a replacement (42_frame_table R129). -/
theorem MapsTo.eq_replaced {p : Policy} {va : Word} {t : FrameTable} {m : MapAnswer}
    (hm : MapsTo p va t m) (hva : va ≠ 0) (hmiss : ∀ j : Fin 8, (t.slot j).va ≠ va)
    (hfull : t.isFull = true) : m = answerReplaced va (freshRef p) (afterScan p t) := by
  cases hm with
  | ignored hzero => exact absurd hzero hva
  | hit i _ hi => exact absurd hi (hmiss i)
  | loaded _ _ hroom => simp [hroom] at hfull
  | replaced => rfl

/-- Settles O42: the case taken determines the outcome, and the outcome the code. -/
theorem outcomeCodeSaysTheCase : Obligations.OutcomeCodeSaysTheCase := by
  intro s i hi
  have hm := mapByPolicy_mapsTo s.policy s.port.a s.table
  refine ⟨_, _, exec_mapOrAccess hi s, commitAnswer_responses _ s, fun hzero => ?_,
    fun hva ⟨k, hk⟩ => ?_, fun hva hmiss hroom => ?_, fun hva hmiss hfull => ?_⟩
  · rw [hm.eq_ignored hzero]
    rfl
  · obtain ⟨j, -, hhit⟩ := hm.eq_hit hva hk
    rw [hhit]
    rfl
  · rw [hm.eq_loaded hva hmiss hroom]
    rfl
  · rw [hm.eq_replaced hva hmiss hfull]
    rfl

/-- Settles O34: to commit the ignored sentinel is to answer, and nothing else. -/
theorem sentinelIsIgnored : Obligations.SentinelIsIgnored := by
  intro s i hi hzero
  rw [exec_mapOrAccess hi, (mapByPolicy_mapsTo _ _ _).eq_ignored hzero]
  simp [commitAnswer, respond, answerIgnored, outcomeCode, statusCode]

/-- A load sets the `ref` bit under CLOCK and leaves it under FIFO (43_fifo R143, 44_clock R155). -/
theorem freshRef_getD (p : Policy) (b : Bool) : (freshRef p).getD b = (p == .clock || b) := by
  cases p <;> rfl

/-- Settles O37: the table committed is the insertion's, field by field. -/
theorem insertionFillsNextSlot : Obligations.InsertionFillsNextSlot := by
  intro s i hi hva hmiss hroom
  refine ⟨insertFree s.port.a (freshRef s.policy) s.table, ?_, insertFree_first _ _ _,
    inc8_val _, ?_, fun j => ?_⟩
  · rw [exec_mapOrAccess hi, (mapByPolicy_mapsTo _ _ _).eq_loaded hva hmiss hroom]
    rfl
  · rw [insertFree_isFull, insertFree_last, hroom, Bool.or_false, decide_eq_true_eq]
  · simp only [insertFree_slot, freshRef_getD, eq_comm (a := s.table.last)]

/-! ### Events -/

/-- The events of MAP and ACCESS by outcome code; the slot of a victim holds the new address afterwards
(42_frame_table R126). -/
theorem MapsTo.events_cases {p : Policy} {va : Word} {t : FrameTable} {m : MapAnswer}
    (hm : MapsTo p va t m) :
    ((outcomeCode m.outcome).toNat < 2 ∧ m.events = []) ∨
    (outcomeCode m.outcome = 2 ∧ m.events = [.load va]) ∨
    (outcomeCode m.outcome = 3 ∧ ∃ j : Fin 8, m.events = [.evict (t.slot j).va, .load va] ∧
      (m.table.slot j).va = va) := by
  cases hm with
  | ignored => exact .inl ⟨Nat.zero_lt_two, rfl⟩
  | hit => exact .inl ⟨Nat.one_lt_two, rfl⟩
  | loaded => exact .inr (.inl ⟨rfl, rfl⟩)
  | replaced =>
    refine .inr (.inr ⟨rfl, (afterScan p t).first, ?_, ?_⟩)
    · rw [answerReplaced, afterScan_va]
    · rw [answerReplaced, replaceAtFirst_slot, if_pos rfl]

/-- Settles O43: MAP and ACCESS append the events of the case taken; an illegal word and every other
command answer one response and leave the trace as it was. -/
theorem eventsOfOneCommand : Obligations.EventsOfOneCommand := by
  intro s c rest hin
  cases hdec : decode c.cmd with
  | error e =>
    exact ⟨_, _, [], step_of_illegal hin hdec, respond_responses .., (List.append_nil _).symm, rfl⟩
  | ok i =>
    have hstep := stepPerformsPresentedCommand s c rest i hin hdec
    have hmapped (hi : i = .map ∨ i = .access) : ∃ m, MapsTo s.policy c.a s.table m ∧
        step s = .next (commitAnswer m (present c rest s)) :=
      ⟨_, mapByPolicy_mapsTo _ _ _, hstep.trans (exec_mapOrAccess hi _)⟩
    have hother (hmap : i ≠ .map) (haccess : i ≠ .access) :
        ∃ t r evs, step s = .next t ∧ t.responses = s.responses ++ [r] ∧
          t.trace = s.trace ++ evs ∧ evs = [] := by
      obtain ⟨rs, r, -, -, hexec⟩ := exec_answersAlone hmap haccess c s.store
      exact ⟨_, r, [], hstep.trans (hexec _ rfl fun _ => rfl), rfl, (List.append_nil _).symm, rfl⟩
    cases i with
    | map | access =>
      obtain ⟨m, hm, h⟩ := hmapped (by simp)
      exact ⟨_, _, _, h, commitAnswer_responses _ _, commitAnswer_trace _ _, hm.events_cases⟩
    | setbit | testbit | clrbit | idx1 | idx2 | idx3 | idx4 | pte2pa | walk =>
      exact hother nofun nofun

/-- Settles O55: the counts go up together, by the response and the events of one case. -/
theorem eventCountsKept : Obligations.EventCountsKept := fun _ _ => eventsCounted_kept

/-! ### What becomes of the residents (42_frame_table R125) -/

/-- There are eight slots. -/
theorem size_le_eight (t : FrameTable) : t.size ≤ 8 := List.countP_le_length

/-- Without duplicates a non-zero address names its slot (10_state R33). -/
theorem slot_unique {t : FrameTable} (ht : t.noDuplicates) {x : Word} (hx : x ≠ 0) {i j : Fin 8}
    (hi : (t.slot i).va = x) (hj : (t.slot j).va = x) : i = j :=
  by_contra fun hij => ht i j hij (hi.trans_ne hx) (hi.trans hj.symm)

/-- After MAP or ACCESS some slot holds the address, unless it is the sentinel. -/
theorem MapsTo.holds {p : Policy} {va : Word} {t : FrameTable} {m : MapAnswer}
    (hm : MapsTo p va t m) (hva : va ≠ 0) : ∃ j : Fin 8, (m.table.slot j).va = va := by
  cases hm with
  | ignored hzero => exact absurd hzero hva
  | hit i _ hi => exact ⟨i, (afterHit_va _ _ _ _).trans hi⟩
  | loaded => exact ⟨t.last, by rw [answerLoaded, insertFree_slot, if_pos rfl]⟩
  | replaced =>
    exact ⟨(afterScan p t).first, by rw [answerReplaced, replaceAtFirst_slot, if_pos rfl]⟩

/-- A resident address that is not evicted stays in its slot: an insertion writes an empty slot, a
replacement the victim's. -/
theorem MapsTo.slot_kept {p : Policy} {va x : Word} {t : FrameTable} {m : MapAnswer}
    (hm : MapsTo p va t m) (ht : t.filling) (hx : x ≠ 0) (hkept : x ∉ evictsOf m.events)
    {j : Fin 8} (hj : (t.slot j).va = x) : (m.table.slot j).va = x := by
  cases hm with
  | ignored => exact hj
  | hit i => exact (afterHit_va _ _ _ _).trans hj
  | loaded _ _ hroom =>
    obtain ⟨-, hocc⟩ := ht hroom
    have hne : t.last ≠ j := ((hocc j).1 (hj.trans_ne hx)).ne'
    rwa [answerLoaded, insertFree_slot, if_neg hne]
  | replaced =>
    have hne : (afterScan p t).first ≠ j := by
      rintro rfl
      exact hkept (by simp [answerReplaced, hj])
    rwa [answerReplaced, replaceAtFirst_slot, if_neg hne, afterScan_va]

/-- An evicted address was resident in one slot, and that slot now holds the new address. -/
theorem MapsTo.evicted {p : Policy} {va x : Word} {t : FrameTable} {m : MapAnswer}
    (hm : MapsTo p va t m) (ht : t.Inv) (hx : x ∈ evictsOf m.events) :
    t.resident x ∧ ¬ m.table.resident x ∧
      ∀ j : Fin 8, (t.slot j).va = x → (m.table.slot j).va = va := by
  obtain ⟨hdup, -, hfullRing, -⟩ := ht
  cases hm with
  | ignored | hit | loaded => exact absurd hx List.not_mem_nil
  | replaced hva hmiss hfull =>
    obtain ⟨-, hocc⟩ := hfullRing hfull
    have hvictim : (t.slot (afterScan p t).first).va = x := by
      simpa [answerReplaced, eq_comm] using hx
    have hx0 : x ≠ 0 := hvictim ▸ hocc _
    refine ⟨⟨hx0, _, hvictim⟩, fun ⟨_, j, hj⟩ => ?_, fun j hj => ?_⟩
    · rw [answerReplaced, replaceAtFirst_slot] at hj
      split at hj
      · exact hmiss _ (hvictim.trans hj.symm)
      · next hne =>
        rw [afterScan_va] at hj
        exact hne (slot_unique hdup hx0 hvictim hj)
    · rw [answerReplaced, replaceAtFirst_slot, if_pos (slot_unique hdup hx0 hvictim hj)]

/-- Settles O47: the invariants are kept, so the slot that holds the address is the only one; only a
victim's slot changes its resident. -/
theorem mapLeavesExactlyOneCopy : Obligations.MapLeavesExactlyOneCopy := by
  intro s i hi ht hva
  have hm := mapByPolicy_mapsTo s.policy s.port.a s.table
  have hinv := hm.inv ht
  obtain ⟨j, hj⟩ := hm.holds hva
  have ⟨_, hfilling, _, _⟩ := ht
  have ⟨hdup, _, _, _⟩ := hinv
  exact ⟨_, _, exec_mapOrAccess hi s, commitAnswer_trace _ s,
    ⟨j, hj, fun k hk => slot_unique hdup hva hk hj⟩, size_le_eight _,
    fun x ⟨hx, k, hk⟩ hkept => ⟨hx, k, hm.slot_kept hfilling hx hkept hk⟩,
    fun x hx => hm.evicted ht hx, hinv, hm.isFull⟩

end Sys2Proof.Machine
end

section
/-! FIFO: a hit changes nothing, a full table is replaced at the hand, and pages leave in the order they
came (43_fifo R140 to R142). -/

namespace Sys2Proof.Machine

/-- Settles O54: a reset empties trace and ring, a load goes to the back of the ring, a victim comes from its
front, and no other step touches either. -/
theorem fifoOrderKept : Obligations.FifoOrderKept := fun _ _ => fifoOrder_kept

/-! ### Runs without a further reset -/

/-- A command writes the frame table, the trace, the requests and the responses, and nothing else. -/
theorem exec_frame {i : Instr} {s t : State} (h : exec i s = .next t) :
    t = { s with table := t.table, trace := t.trace, reads := t.reads, responses := t.responses } := by
  by_cases hi : i = .map ∨ i = .access
  · obtain rfl := Host.Outcome.next.inj ((exec_mapOrAccess hi s).symm.trans h)
    rfl
  · obtain ⟨hmap, haccess⟩ := not_or.1 hi
    obtain ⟨rs, r, hexec, -, -⟩ := otherCommandsAreStateless i hmap haccess s
    obtain rfl := Host.Outcome.next.inj (hexec.symm.trans h)
    rfl

/-- Every step takes exactly the caller's next input (70_reset R222). -/
theorem step_inputs {s t : State} (h : step s = .next t) : t.inputs = s.inputs.tail := by
  rcases step_cases s with ⟨hin, hs⟩ | ⟨c, rest, i, hin, -, hs⟩ | ⟨c, rest, e, hin, -, hs⟩ |
    ⟨p, rest, hin, hs⟩ | ⟨f, i, e, rest, hin, hs⟩
  case inr.inl =>
    rw [exec_frame (hs.symm.trans h), hin]
    rfl
  all_goals
    obtain rfl := Host.Outcome.next.inj (hs.symm.trans h)
    simp [hin, raiseIllegalCommand_eq]

/-- A step that is no reset keeps the policy (10_state R26). -/
theorem step_policy {s t : State} (hreset : ∀ strap rest, s.inputs ≠ .reset strap :: rest)
    (h : step s = .next t) : t.policy = s.policy := by
  cases stepKind_of_step h with
  | reset strap rest hin => exact absurd hin (hreset strap rest)
  | mapped c rest m => rfl
  | quiet t hq => exact hq.policy

/-- A state of a run with FIFO strapped and no reset to come. -/
structure FifoRun (s : State) : Prop where
  inv : s.Inv
  policy : s.policy = .fifo
  noReset : ∀ strap, .reset strap ∉ s.inputs

/-- Every step of such a run leads to another of its states. -/
theorem fifoRun_kept {s t : State} (hs : FifoRun s) (h : step s = .next t) : FifoRun t where
  inv := everyInvariantKept s t hs.inv h
  policy := by
    have hreset : ∀ strap rest, s.inputs ≠ .reset strap :: rest := fun strap rest hin =>
      hs.noReset strap (by simp [hin])
    rw [step_policy hreset h, hs.policy]
  noReset strap hmem := by
    rw [step_inputs h] at hmem
    exact hs.noReset strap (List.mem_of_mem_tail hmem)

/-- In such a run what was evicted is an initial part of what was loaded (43_fifo R142). -/
theorem FifoRun.evicts_prefix_loads {s : State} (hs : FifoRun s) :
    evictsOf s.trace <+: loadsOf s.trace := by
  obtain ⟨-, -, horder, -⟩ := hs.inv
  exact ⟨s.table.ringOrder, (horder hs.policy).symm⟩

/-- Settles O58: FIFO's order holds at the end of the run, so the evictions are an initial part of the
loads. -/
theorem fifoEvictsInLoadOrder : Obligations.FifoEvictsInLoadOrder := by
  intro store inputs k t hstore hreset hrun n va hn
  have hstart : FifoRun { State.resetWith .fifo with store := store, inputs := inputs } :=
    ⟨resetWith_inv .fifo store inputs hstore, rfl, hreset⟩
  obtain ⟨u, hu, hend⟩ := run_keeps (fun _ _ => fifoRun_kept) k _ hstart
  obtain rfl : u = t := Host.Outcome.next.inj (hu.symm.trans hrun)
  obtain ⟨residents, hloads⟩ := hend.evicts_prefix_loads
  obtain ⟨hlt, -⟩ := List.getElem?_eq_some_iff.1 hn
  rw [← hloads, List.getElem?_append_left hlt, hn]

/-! ### One command -/

/-- Under a given policy MAP and ACCESS commit the answer of one of its four cases. -/
theorem exec_mapsTo {i : Instr} {p : Policy} {s : State} (hi : i = .map ∨ i = .access)
    (hp : s.policy = p) :
    ∃ m, MapsTo p s.port.a s.table m ∧ exec i s = .next (commitAnswer m s) :=
  hp ▸ ⟨_, mapByPolicy_mapsTo _ _ _, exec_mapOrAccess hi s⟩

/-- Settles O35: a hit leaves the table to the policy's bookkeeping, and FIFO has none. -/
theorem fifoHitChangesNothing : Obligations.FifoHitChangesNothing := by
  intro s i k hi hp hva hk
  obtain ⟨m, hm, hexec⟩ := exec_mapsTo hi hp
  obtain ⟨j, -, rfl⟩ := hm.eq_hit hva hk
  simp [hexec, commitAnswer, respond, answerHit, afterHit, outcomeCode, statusCode]

/-- Settles O38: FIFO takes the hand as it stands, so the table committed is the replacement's, field by
field. -/
theorem fifoReplacesAtHand : Obligations.FifoReplacesAtHand := by
  intro s i hi hp hva hmiss hfull
  obtain ⟨m, hm, hexec⟩ := exec_mapsTo hi hp
  obtain rfl := hm.eq_replaced hva hmiss hfull
  refine ⟨replaceAtFirst s.port.a none s.table, hexec, inc8_val _, rfl,
    (replaceAtFirst_isFull _ _ _).trans hfull, fun j => ?_⟩
  simp only [replaceAtFirst_slot, Option.getD_none, eq_comm (a := s.table.first)]

end Sys2Proof.Machine
end

section
/-! CLOCK: the hit, the eviction scan turn by turn, and the first eviction after the table has filled
(44_clock R152 to R156). -/

namespace Sys2Proof.Machine

/-! ### The hit -/

/-- The slots in index order: slot `i` stands at place `i`. -/
theorem allSlots_getElem (i : Nat) (hi : i < allSlots.length) : allSlots[i] = ⟨i, hi⟩ := by
  have hrange : allSlots = List.finRange 8 := rfl
  simp [hrange]

/-- The lookup answers the lowest slot that holds the address (42_frame_table R121). -/
theorem find_lowest {va : Word} {t : FrameTable} {k : Fin 8} (hk : (t.slot k).va = va)
    (hlow : ∀ j : Fin 8, j < k → (t.slot j).va ≠ va) : find va t = some k := by
  refine List.find?_eq_some_iff_getElem.2
    ⟨by simpa using hk, k.val, k.isLt, allSlots_getElem _ _, fun i hi => ?_⟩
  rw [allSlots_getElem]
  simpa using hlow ⟨i, hi.trans k.isLt⟩ hi

/-- A hit under CLOCK is answered with the bookkeeping of the slot found (44_clock R150, R152). -/
theorem mapClock_hit {va : Word} {t : FrameTable} {k : Fin 8} (hva : va ≠ 0)
    (hfind : find va t = some k) : mapClock va t = answerHit (touchSlot k t) := by
  simp only [mapClock, if_neg hva, hfind]

/-- Settles O36: the lookup finds slot `k`, and the bookkeeping of a hit writes that slot's `ref`. -/
theorem clockHitSetsOneReferencedBit : Obligations.ClockHitSetsOneReferencedBit := by
  intro s i k hi hp hva hk hlow
  refine ⟨touchSlot k s.table, ?_, rfl, rfl, rfl, fun j => ?_⟩
  · rw [exec_mapOrAccess hi, hp, mapByPolicy, mapClock_hit hva (find_lowest hk hlow)]
    simp [commitAnswer, respond, answerHit, outcomeCode, statusCode, hp]
  · rw [touchSlot, setRef_slot]
    by_cases hj : j = k
    · rw [if_pos hj, if_pos hj.symm, hj, hk]
    · rw [if_neg hj, if_neg (Ne.symm hj)]

/-! ### The ring seen from the hand -/

/-- Eight places from the hand on are the hand again. -/
theorem ringSlot_eight (t : FrameTable) : ringSlot t 8 = t.first := by
  simp [ringSlot]

/-- The hand advances to the next place of the ring. -/
theorem inc8_ringSlot (t : FrameTable) (k : Nat) : inc8 (ringSlot t k) = ringSlot t (k + 1) := by
  simp only [inc8, ringSlot, Fin.ext_iff, Fin.val_add, Fin.val_ofNat, Fin.val_one]
  omega

/-- The first eight places of the ring are different slots. -/
theorem ringSlot_ne {t : FrameTable} {k m : Nat} (hkm : k < m) (hm : m < 8) :
    ringSlot t m ≠ ringSlot t k := by
  simp only [ringSlot, ne_eq, Fin.ext_iff, Fin.val_add, Fin.val_ofNat]
  omega

/-- The first eight places of the ring are all the slots. -/
theorem exists_ringSlot (t : FrameTable) (j : Fin 8) : ∃ k < 8, j = ringSlot t k :=
  ⟨(j - t.first).val, (j - t.first).isLt, by simp [ringSlot]⟩

/-! ### The scan -/

/-- The hand after `c` turns of the scan's loop. -/
theorem passHand_iterate_first (t : FrameTable) (c : Nat) :
    (passHand^[c] t).first = ringSlot t c := by
  induction c with
  | zero => simp [ringSlot]
  | succ c ih => rw [Function.iterate_succ_apply', passHand_first, ih, inc8_ringSlot]

/-- The slots after `c` turns of the scan's loop: those passed have lost their `ref` bit. -/
theorem passHand_iterate_slot (t : FrameTable) (c : Nat) (j : Fin 8) :
    (passHand^[c] t).slot j =
      ⟨(t.slot j).va, (t.slot j).ref && !decide (∃ k < c, j = ringSlot t k)⟩ := by
  induction c with
  | zero => simp
  | succ c ih =>
    rw [Function.iterate_succ_apply', passHand_slot, passHand_iterate_first, ih]
    by_cases hj : ringSlot t c = j
    · have hpassed : ∃ k < c + 1, j = ringSlot t k := ⟨c, c.lt_succ_self, hj.symm⟩
      rw [if_pos hj, decide_eq_true hpassed, Bool.not_true, Bool.and_false]
    · have hsame : (∃ k < c + 1, j = ringSlot t k) ↔ ∃ k < c, j = ringSlot t k :=
        Nat.exists_lt_succ_right.trans (or_iff_left (Ne.symm hj))
      rw [if_neg hj, decide_eq_decide.2 hsame]

/-- The scan makes turns of its loop while the slot at the hand is referenced, as far as the fuel goes
(44_clock R153). -/
theorem clockScan_eq_iterate (n : Nat) (t : FrameTable) : ∃ c ≤ n, clockScan n t = passHand^[c] t ∧
    (∀ k < c, ((passHand^[k] t).slot (passHand^[k] t).first).ref = true) ∧
    (c < n → ((passHand^[c] t).slot (passHand^[c] t).first).ref = false) := by
  induction n generalizing t with
  | zero => exact ⟨0, le_rfl, rfl, nofun, nofun⟩
  | succ n ih =>
    rw [clockScan_succ]
    by_cases href : (t.slot t.first).ref = true
    · obtain ⟨c, hc, hscan, hpassed, hstop⟩ := ih (passHand t)
      rw [if_pos href]
      refine ⟨c + 1, Nat.succ_le_succ hc, hscan, fun k hk => ?_, fun h => hstop (by omega)⟩
      cases k with
      | zero => exact href
      | succ k => exact hpassed k (Nat.lt_of_succ_lt_succ hk)
    · rw [if_neg href]
      exact ⟨0, Nat.zero_le _, rfl, nofun, fun _ => Bool.eq_false_iff.2 href⟩

/-- The scan passes `c` slots from the hand on, all referenced, and stops at the next; after eight it is
back at the hand, whose bit it has cleared, so the fuel of nine tests is enough (44_clock R154). -/
theorem clockScan_passes (t : FrameTable) : ∃ c ≤ 8, clockScan scanFuel t = passHand^[c] t ∧
    (∀ k < c, (t.slot (ringSlot t k)).ref = true) ∧
    (c < 8 → (t.slot (ringSlot t c)).ref = false) := by
  obtain ⟨c, hfuel, hscan, hpassed, hstop⟩ := clockScan_eq_iterate scanFuel t
  simp only [passHand_iterate_first, passHand_iterate_slot] at hpassed hstop
  have hc : c ≤ 8 := by
    by_contra hc
    have hcleared : ∃ k < 8, ringSlot t 8 = ringSlot t k := exists_ringSlot t _
    simpa [hcleared] using hpassed 8 (not_le.1 hc)
  refine ⟨c, hc, hscan, fun k hk => (Bool.and_eq_true_iff.1 (hpassed k hk)).1, fun hc => ?_⟩
  have hfresh : ¬ ∃ k < c, ringSlot t c = ringSlot t k := fun ⟨k, hk, h⟩ => ringSlot_ne hk hc h
  simpa [hfresh] using hstop (hc.trans (by decide))

/-! ### Replacement -/

/-- Settles O39: the replacement writes the slot where the scan stops, and the scan has cleared the bits
it passed. -/
theorem clockReplacesFirstUnreferenced : Obligations.ClockReplacesFirstUnreferenced := by
  intro s i hi hp hva hmiss hfull
  obtain ⟨m, hm, hexec⟩ := exec_mapsTo hi hp
  obtain rfl := hm.eq_replaced hva hmiss hfull
  obtain ⟨c, hc, hscan, hpassed, hstop⟩ := clockScan_passes s.table
  have hhand : (clockScan scanFuel s.table).first = ringSlot s.table c := by
    rw [hscan, passHand_iterate_first]
  refine ⟨replaceAtFirst s.port.a (some true) (clockScan scanFuel s.table), c, hc, hpassed, hstop,
    ?_, ?_, rfl, ?_, fun j => ?_⟩
  · rw [hexec, ← hhand, ← afterScan_va .clock]
    rfl
  · rw [replaceAtFirst_first, hhand, inc8_ringSlot]
  · rw [replaceAtFirst_isFull, ← hfull]
    exact afterScan_isFull .clock s.table
  · rw [replaceAtFirst_slot, hhand, hscan, passHand_iterate_slot]
    simp only [Option.getD_some, eq_comm (a := j)]

/-- Settles O40: with all slots referenced the scan cannot stop before it has passed all eight. -/
theorem fullSweepEvictsOriginalHand : Obligations.FullSweepEvictsOriginalHand := by
  intro s i hi hp hva hmiss hfull href
  obtain ⟨u, c, hc, -, hstop, hexec, hfirst, hlast, -, hslot⟩ :=
    clockReplacesFirstUnreferenced s i hi hp hva hmiss hfull
  obtain rfl : c = 8 := le_antisymm hc <| not_lt.1 fun hlt => by
    simpa [href] using hstop hlt
  rw [← inc8_ringSlot, ringSlot_eight] at hfirst
  rw [ringSlot_eight] at hexec
  refine ⟨u, hexec, hfirst ▸ inc8_val _, hlast, fun j => ?_⟩
  rw [hslot, ringSlot_eight, decide_eq_true (exists_ringSlot s.table j), Bool.not_true,
    Bool.and_false]

/-! ### The first eviction -/

/-- Settles O52: a reset starts anew, a hit or load leaves hand and order as said, a replacement evicts,
and every other step leaves table and trace alone. -/
theorem beforeFirstEvictionKept : Obligations.BeforeFirstEvictionKept := fun _ _ =>
  beforeFirstEviction_kept

/-- Settles O53: before the first eviction the hand is at slot 0 and every slot of a full table is
referenced, so the scan sweeps the ring; the ring's first address was loaded first. -/
theorem firstClockEvictionTakesFirstLoaded : Obligations.FirstClockEvictionTakesFirstLoaded := by
  intro s i hi ht hbefore hp hnone hfull hva hmiss
  obtain ⟨hfirst, hloads, href⟩ := hbefore hnone
  obtain ⟨-, -, hfullRing, -⟩ := ht
  obtain ⟨-, hocc⟩ := hfullRing hfull
  obtain ⟨u, hexec, hhand, -, hslot⟩ :=
    fullSweepEvictsOriginalHand s i hi hp hva hmiss hfull fun j => href hp j (hocc j)
  rw [hfirst] at hexec hhand hslot
  refine ⟨_, hexec, rfl, ?_, Fin.ext hhand, by rw [hslot, if_pos rfl], fun j hj => ?_⟩
  · rw [hloads, ringOrder_full_cons hfull, List.head?_cons, hfirst]
  · rw [hslot, if_neg hj]

end Sys2Proof.Machine
end

section
/-! The walker: WALK as four dependent reads, as the caller's own walk out of the primitive commands,
and retried once the missing entry is present (45_walker R166 to R170). -/

namespace Sys2Proof.Machine

/-! ### The reads of a walk -/

/-- The base of a table as arithmetic on the word that names it (20_memory R57). -/
theorem tableBase_eq_ofNat (h : Word) :
    tableBase h = BitVec.ofNat 52 (h.toNat / 4096 % 2 ^ 40 * 4096) := by
  have hbase : (tableBase h).toNat = h.toNat / 4096 % 2 ^ 40 * 4096 := by
    rw [tableBase, toNat_append_eq_add, frameNumber, BitVec.extractLsb'_toNat,
      Nat.shiftRight_eq_div_pow, BitVec.toNat_zero, Nat.add_zero]
    rfl
  rw [← hbase, BitVec.ofNat_toNat, BitVec.setWidth_eq]

/-- An index as arithmetic on the address, in its own nine bits (41_address_translator R105). -/
theorem indexLevel_eq_ofNat (k : Level) (va : Word) :
    indexLevel k va = BitVec.ofNat 9 (va.toNat / 2 ^ indexShift k % 512) := by
  have hindex : (indexLevel k va).toNat = va.toNat / 2 ^ indexShift k % 512 := by
    rw [indexLevel, BitVec.extractLsb'_toNat, Nat.shiftRight_eq_div_pow]
  rw [← hindex, BitVec.ofNat_toNat, BitVec.setWidth_eq]

/-- WALK makes the requests of its walk and answers by the walk's end (45_walker R166, R167). -/
theorem exec_walk (s : State) :
    exec .walk s =
      .next (answerWith (walkLevels s.store s.port.a walkOrder s.port.b).reads
        (walkResponse s.port.a (walkLevels s.store s.port.a walkOrder s.port.b).ended) s) := by
  refine congrArg Host.Outcome.next ?_
  unfold walkCommand
  dsimp only
  cases (walkLevels s.store s.port.a walkOrder s.port.b).ended <;> rfl

/-- What WALK does where its walk is known. -/
theorem exec_walk_of_run {s : State} {rs : List TblReq} (ended : Except Level Word)
    (hw : walkLevels s.store s.port.a walkOrder s.port.b = ⟨rs, ended⟩) :
    exec .walk s = .next (answerWith rs (walkResponse s.port.a ended) s) := by
  rw [exec_walk, hw]

/-- Settles O31: each level's entry is present and the walk goes on to the next, or it is not and the
walk ends there. -/
theorem walkReadsFourLevels : Obligations.WalkReadsFourLevels := by
  refine ⟨decode_commandNumber (i := .walk) rfl, fun s => ?_⟩
  have h1 : BitVec.ofNat 9 (s.port.a.toNat / 2 ^ 39 % 512) = indexLevel .one s.port.a :=
    (indexLevel_eq_ofNat .one _).symm
  have h2 : BitVec.ofNat 9 (s.port.a.toNat / 2 ^ 30 % 512) = indexLevel .two s.port.a :=
    (indexLevel_eq_ofNat .two _).symm
  have h3 : BitVec.ofNat 9 (s.port.a.toNat / 2 ^ 21 % 512) = indexLevel .three s.port.a :=
    (indexLevel_eq_ofNat .three _).symm
  have h4 : BitVec.ofNat 9 (s.port.a.toNat / 2 ^ 12 % 512) = indexLevel .four s.port.a :=
    (indexLevel_eq_ofNat .four _).symm
  simp only [← tableBase_eq_ofNat, h1, h2, h3, h4]
  split_ifs with p1 p2 p3 p4
  · exact exec_walk_of_run (.error .one) (walkLevels_absent _ p1)
  all_goals have p1 := Bool.eq_true_of_not_eq_false p1
  · refine exec_walk_of_run (.error .two) ?_
    rw [walkOrder, walkLevels_present _ p1, walkLevels_absent _ p2]
  all_goals have p2 := Bool.eq_true_of_not_eq_false p2
  · refine exec_walk_of_run (.error .three) ?_
    rw [walkOrder, walkLevels_present _ p1, walkLevels_present _ p2, walkLevels_absent _ p3]
  all_goals have p3 := Bool.eq_true_of_not_eq_false p3
  · refine exec_walk_of_run (.error .four) ?_
    rw [walkOrder, walkLevels_present _ p1, walkLevels_present _ p2, walkLevels_present _ p3,
      walkLevels_absent _ p4]
  · have p4 := Bool.eq_true_of_not_eq_false p4
    refine ⟨_, exec_walk_of_run (.ok _) ?_, physicalAddress_toNat _ _⟩
    rw [walkOrder, walkLevels_present _ p1, walkLevels_present _ p2, walkLevels_present _ p3,
      walkLevels_present _ p4, walkLevels]

/-! ### The walk out of primitives -/

/-- One level of the caller's walk: the index command and TESTBIT of PRESENT stand for the level's index
and the entry's PRESENT (45_walker R170). -/
theorem callerWalk_cons (s : State) (va h : Word) (k : Level) (ks : List Level) :
    callerWalk s va (k :: ks) h =
      if isPresent (tblRead s.store ⟨tableBase h, indexLevel k va⟩) then
        callerWalk s va ks (tblRead s.store ⟨tableBase h, indexLevel k va⟩)
      else some (walkResponse va (.error k)) := by
  have hindex : (zext64 (indexLevel k va)).setWidth 9 = indexLevel k va := by
    rw [zext64, BitVec.setWidth_setWidth_of_le _ (by decide), BitVec.setWidth_eq]
  have htest : ∀ e, answerValue (testflag .present) e 0 s = some (boolWord (isPresent e)) :=
    fun e => answerValue_testbit (flagPosition_lt .present) e 0 s
  simp only [callerWalk, answerValue_index, hindex, htest]
  cases isPresent (tblRead s.store ⟨tableBase h, indexLevel k va⟩) <;> rfl

/-- The two walks end alike from any level on; at the end PTE2PA finds the entry present, as the last
TESTBIT did (45_walker R170). -/
theorem callerWalk_eq_walkResponse (s : State) (va : Word) (ks : List Level) {h : Word}
    (hend : ks = [] → isPresent h = true) :
    callerWalk s va ks h = some (walkResponse va (walkLevels s.store va ks h).ended) := by
  induction ks generalizing h with
  | nil =>
    rw [callerWalk, answer_pte2pa, pteToPhysical, hend rfl]
    rfl
  | cons k ks ih =>
    rw [callerWalk_cons]
    split
    · next hp =>
      rw [ih fun _ => hp, walkLevels_present ks hp]
    · next hp =>
      rw [walkLevels_absent ks (Bool.eq_false_of_not_eq_true hp)]

/-- Settles O32: both answer by the end of the walk over the four levels. -/
theorem walkEqualsPrimitives : Obligations.WalkEqualsPrimitives := by
  intro s va root
  rw [answer_walk, callerWalk_eq_walkResponse s va walkOrder nofun]

/-! ### The retry after a fault -/

/-- The request a faulting walk made last is the one whose entry is not present (45_walker R167). -/
theorem walkLevels_fault_last {m : Memory} {va : Word} {k : Level} (ks : List Level) {h : Word}
    (hend : (walkLevels m va ks h).ended = .error k) :
    ∃ r, (walkLevels m va ks h).reads.getLast? = some r ∧ isPresent (tblRead m r) = false := by
  induction ks generalizing h with
  | nil => cases hend
  | cons j ks ih =>
    cases hp : isPresent (tblRead m ⟨tableBase h, indexLevel j va⟩) with
    | false =>
      rw [walkLevels_absent ks hp]
      exact ⟨_, rfl, hp⟩
    | true =>
      rw [walkLevels_present ks hp] at hend ⊢
      obtain ⟨r, hr, habsent⟩ := ih hend
      exact ⟨r, by rw [List.getLast?_cons, hr, Option.getD_some], habsent⟩

/-- A walk that missed its last level's entry gets through once that entry is present: the entries it
read before were present, so they are other entries and still read as they did (45_walker R169). -/
theorem walkLevels_retry {m : Memory} {va pte : Word} {k : Level} {f : BitVec 40} {i : BitVec 9}
    (hm : m.wf) (hpte : isPresent pte = true) (ks : List Level) (hk : k ∉ ks) {h : Word}
    (hend : (walkLevels m va (ks ++ [k]) h).ended = .error k)
    (hlast : (walkLevels m va (ks ++ [k]) h).reads.getLast? = some ⟨f ++ 0#12, i⟩) :
    (walkLevels (writeWord m (entryAddress (f ++ 0#12) i) pte) va (ks ++ [k]) h).ended =
      .ok pte := by
  induction ks generalizing h with
  | nil =>
    rw [List.nil_append] at hend hlast ⊢
    cases hp : isPresent (tblRead m ⟨tableBase h, indexLevel k va⟩) with
    | true =>
      rw [walkLevels_present [] hp] at hend
      cases hend
    | false =>
      rw [walkLevels_absent [] hp] at hlast
      have hread : tblRead (writeWord m (entryAddress (f ++ 0#12) i) pte)
          ⟨tableBase h, indexLevel k va⟩ = pte := by
        have hreq : (⟨tableBase h, indexLevel k va⟩ : TblReq) = ⟨f ++ 0#12, i⟩ :=
          Option.some.inj hlast
        rw [hreq, tblRead_writeWord hm, if_pos ⟨rfl, rfl⟩]
      rw [walkLevels_present [] (by rwa [hread]), hread, walkLevels]
  | cons j ks ih =>
    rw [List.cons_append] at hend hlast ⊢
    obtain ⟨hkj, hk⟩ := List.ne_and_not_mem_of_not_mem_cons hk
    cases hp : isPresent (tblRead m ⟨tableBase h, indexLevel j va⟩) with
    | false =>
      rw [walkLevels_absent _ hp] at hend
      exact absurd (Except.error.inj hend).symm hkj
    | true =>
      rw [walkLevels_present _ hp] at hend hlast
      obtain ⟨r, hr, habsent⟩ := walkLevels_fault_last _ hend
      obtain rfl : r = ⟨f ++ 0#12, i⟩ := by
        rw [List.getLast?_cons, hr, Option.getD_some] at hlast
        exact Option.some.inj hlast
      have hread : tblRead (writeWord m (entryAddress (f ++ 0#12) i) pte)
          ⟨tableBase h, indexLevel j va⟩ = tblRead m ⟨tableBase h, indexLevel j va⟩ := by
        rw [tableBase, tblRead_writeWord hm]
        refine if_neg fun ⟨hf, hi⟩ => ?_
        rw [hf, hi, ← tableBase, hp] at habsent
        cases habsent
      rw [walkLevels_present _ (by rwa [hread]), hread]
      exact ih hk hend hr

/-- PAGE_FAULT with info 4 is the answer of a walk that ended at level 4 (45_walker R167). -/
theorem walkResponse_level_four {va : Word} {ended : Except Level Word}
    (h : walkResponse va ended = ⟨1, 4, none⟩) : ended = .error .four := by
  cases ended with
  | ok pte => cases h
  | error k =>
    have hinfo : BitVec.ofNat 3 (levelNumber k) = 4 := congrArg Response.info h
    cases k with
    | four => rfl
    | one | two | three => exact absurd hinfo (by decide)

/-- A run of the block goes on from where its first step went. -/
theorem core_run_succ {s t : State} (h : step s = .next t) (k : Nat) :
    Host.Core.run Sys2Proof.core (k + 1) s = Host.Core.run Sys2Proof.core k t :=
  run_succ (M := Sys2Proof.core) h k

/-- Presented commands, whatever they are, are taken one by one and leave the table store
(20_memory R59). -/
theorem run_commands {rest : List Input} (cs : List Command) (k : Nat) {s : State}
    (hin : s.inputs = cs.map .command ++ rest) :
    ∃ u : State, Host.Core.run Sys2Proof.core (k + cs.length) s = Host.Core.run Sys2Proof.core k u ∧
      u.store = s.store ∧ u.inputs = rest := by
  induction cs generalizing s with
  | nil => exact ⟨s, rfl, rfl, hin⟩
  | cons c cs ih =>
    obtain ⟨t, ht, -⟩ := step_completes s
    obtain ⟨u, hrun, hstore, hrest⟩ := ih (s := t) (by rw [step_inputs ht, hin]; rfl)
    have htstore := (commandsWriteNoMemory s t c _ hin ht).1
    exact ⟨u, (core_run_succ ht _).trans hrun, hstore.trans htstore, hrest⟩

/-- The step of a presented WALK (45_walker R166, R167). -/
theorem step_of_walk {s : State} {va root : Word} {rest : List Input}
    (hin : s.inputs = .command ⟨0x000B, va, root⟩ :: rest) :
    step s = .next (answerWith (walkLevels s.store va walkOrder root).reads
      (walkResponse va (walkLevels s.store va walkOrder root).ended)
      (present ⟨0x000B, va, root⟩ rest s)) :=
  (stepPerformsPresentedCommand s _ rest .walk hin (decode_commandNumber (i := .walk) rfl)).trans
    (exec_walk _)

/-- Settles O33: the commands leave the store, the write changes the entry the first WALK read last,
and the second WALK finds it present. -/
theorem retrySucceedsOnceEntryIsPresent : Obligations.RetrySucceedsOnceEntryIsPresent := by
  intro s va root pte frame index mid hwf hfault hlast hpte hmid hin
  obtain ⟨cs, rfl⟩ : ∃ cs : List Command, mid = cs.map .command := by
    obtain rfl | rfl := hmid
    · exact ⟨[], rfl⟩
    · exact ⟨[⟨0x0009, va, 0⟩], rfl⟩
  obtain ⟨u, hrun, hstore, hrest⟩ := run_commands (⟨0x000B, va, root⟩ :: cs) 2 hin
  have hend : (walkLevels s.store va walkOrder root).ended = .error .four := by
    rw [answer_walk] at hfault
    exact walkResponse_level_four (Option.some.inj hfault)
  have hretry : (walkLevels (writeWord s.store (entryAddress (frame ++ 0#12) index) pte) va
      walkOrder root).ended = .ok pte :=
    walkLevels_retry hwf hpte [.one, .two, .three] (by decide) hend hlast
  have hwrite := step_of_tableWrite hrest
  have hwalk := step_of_walk
    (applyTableWrite_inputs frame index pte [.command ⟨0x000B, va, root⟩] u)
  rw [applyTableWrite_store, hstore, hretry] at hwalk
  have hlength : 3 + (cs.map Input.command).length = 2 + (⟨0x000B, va, root⟩ :: cs).length := by
    rw [List.length_map, List.length_cons]
    omega
  have hruns := hrun.trans ((core_run_succ hwrite 1).trans (core_run_succ hwalk 0))
  rw [← hlength] at hruns
  exact ⟨_, _, hruns, List.getLast?_concat, physicalAddress_toNat pte va⟩

end Sys2Proof.Machine
end

section
/-! Conditions: nothing halts the block, a reserved field wins over a bad index, a command that meets a
condition changes nothing, and a run is free of callers' errors while its inputs are sound
(60_exceptions R180 to R188). -/

namespace Sys2Proof.Machine

/-! ### Every step completes -/

/-- The idle step (60_exceptions R194). -/
theorem step_of_no_input {s : State} (hin : s.inputs = []) : step s = .next s := by
  simp only [step, hin, idle]

/-- Settles O13: every step completes and takes one input, and the idle step stays. -/
theorem everyStepCompletes : Obligations.EveryStepCompletes := by
  intro s
  obtain ⟨t, ht, -⟩ := step_completes s
  exact ⟨t, ht, step_inputs ht,
    fun hin => Host.Outcome.next.inj (ht.symm.trans (step_of_no_input hin))⟩

/-! ### The order of the checks -/

/-- The decoder rejects a word whose bits 7:4 are not 0, whatever its other fields are
(30_encoding R78). -/
theorem exists_decode_error_of_rsv_ne_zero {w : BitVec 16} (hrsv : w.toNat / 16 % 16 ≠ 0) :
    ∃ e, decode w = .error e := by
  cases hdec : decode w with
  | error e => exact ⟨e, rfl⟩
  | ok i =>
    have hzero : rsvField w = 0 := (carries_of_decode hdec).rsv
    exact absurd (by rw [← rsvField_toNat, hzero]; rfl) hrsv

/-- Settles O10: the word is rejected before its index is looked at. -/
theorem illegalWordBeforeBadIndex : Obligations.IllegalWordBeforeBadIndex := by
  intro s c rest hin hrsv
  obtain ⟨e, hdec⟩ := exists_decode_error_of_rsv_ne_zero hrsv
  exact illegalCommandAnswered s c rest e hin hdec

/-! ### A condition changes nothing -/

/-- The word on the port is either answered alone, by a quiet response, or it takes effect as MAP or
ACCESS (60_exceptions R188). -/
theorem runPort_cases (s : State) :
    (∃ rs r, r.Quiet ∧ runPort s = .next (answerWith rs r s)) ∨
      ∃ m, runPort s = .next (commitAnswer m s) := by
  cases hdec : decode s.port.cmd with
  | error e =>
    refine .inl ⟨[], _, .of_condition (st := .illegalCmd) (info := 0) (by decide) (by decide), ?_⟩
    rw [runPort_of_decode_error hdec, respond_eq_answerWith]
  | ok i =>
    rw [runPort_of_decode_ok hdec]
    by_cases hi : i = .map ∨ i = .access
    · exact .inr ⟨_, exec_mapOrAccess hi s⟩
    · obtain ⟨hmap, haccess⟩ := not_or.1 hi
      obtain ⟨rs, r, hr, -, hexec⟩ := exec_answersAlone hmap haccess s.port s.store
      exact .inl ⟨rs, r, hr, hexec s rfl fun _ => rfl⟩

/-- A legal response has a result only with status OK (30_encoding R74). -/
theorem Response.result_eq_none_of_legal {r : Response} (hlegal : r.legal = true)
    (hstatus : r.status ≠ 0) : r.result = none := by
  have hok : r.status ≠ statusCode .ok := hstatus
  have hform : (r.status.toNat ≤ 3 ∧ r.info.toNat ≤ 4) ∧ r.result = none := by
    simpa [Response.legal, hok] using hlegal
  exact hform.2

/-- Settles O15: a command answered alone changes nothing else, and MAP and ACCESS answer OK. -/
theorem conditionsChangeNothing : Obligations.ConditionsChangeNothing := by
  intro s t c rest r hin h hr hstatus
  rw [step_of_command hin] at h
  obtain ⟨rs, q, hq, hrun⟩ | ⟨m, hrun⟩ := runPort_cases (present c rest s)
  · obtain rfl := Host.Outcome.next.inj (hrun.symm.trans h)
    obtain rfl : q = r := List.singleton_inj.1 (List.append_cancel_left hr)
    exact ⟨Response.result_eq_none_of_legal hq.legal hstatus, rfl⟩
  · obtain rfl := Host.Outcome.next.inj (hrun.symm.trans h)
    obtain rfl := List.singleton_inj.1 (List.append_cancel_left hr)
    exact absurd rfl hstatus

/-! ### Callers' errors -/

/-- A response of one shape has every weaker shape. -/
theorem RespondsWith.mono {shape weaker : Response → Prop} {s t : State}
    (h : RespondsWith shape s t) (hshape : ∀ r, shape r → weaker r) : RespondsWith weaker s t := by
  obtain ⟨r, hr, hr'⟩ := h
  exact ⟨r, hr, hshape r hr'⟩

/-- A bit command answers a caller's error exactly when its index is above 63 (60_exceptions R185). -/
theorem bitCommand_callerError (n : Nat) (f : Word → Word) (s : State) :
    RespondsWith (fun r => r.callerError = !decide (n < 64)) s (bitCommand n f s) := by
  rcases Nat.lt_or_ge n 64 with hn | hn
  · rw [bitCommand_legal f s hn]
    exact ⟨_, respond_responses .., by rw [decide_eq_true hn]; rfl⟩
  · rw [bitCommand_illegal f s hn]
    exact ⟨_, respond_responses .., by rw [decide_eq_false (Nat.not_lt.2 hn)]; rfl⟩

/-- A command answers a caller's error exactly when its index is illegal (60_exceptions R185). -/
theorem exec_callerError (i : Instr) (s : State) : ∃ t, exec i s = .next t ∧
    RespondsWith (fun r => r.callerError = !legalIndex i) s t := by
  cases i with
  | setbit n | testbit n | clrbit n => exact ⟨_, rfl, bitCommand_callerError n _ s⟩
  | idx1 | idx2 | idx3 | idx4 =>
    refine ⟨_, rfl, (respondIndex_respondsWith _ s).mono ?_⟩
    rintro _ ⟨v, rfl⟩
    rfl
  | pte2pa =>
    refine ⟨_, rfl, (respondPhysical_respondsWith _ _ s).mono ?_⟩
    rintro _ (⟨v, rfl⟩ | rfl) <;> rfl
  | map | access =>
    refine ⟨_, rfl, (commitAnswer_respondsWith _ s).mono ?_⟩
    rintro ⟨_, info, result⟩ ⟨rfl, -⟩
    rfl
  | walk =>
    refine ⟨_, rfl, (walkCommand_respondsWith s).mono ?_⟩
    rintro ⟨_, info, result⟩ (⟨v, hr⟩ | ⟨rfl, -⟩)
    · cases hr
      rfl
    · rfl

/-- A presented command is answered with a caller's error exactly when it is not sound
(60_exceptions R184, R185). -/
theorem step_callerError {s t : State} {c : Command} {rest : List Input}
    (hin : s.inputs = .command c :: rest) (h : step s = .next t) :
    RespondsWith (fun r => r.callerError = !(Input.command c).sound) s t := by
  cases hdec : decode c.cmd with
  | error e =>
    obtain rfl := Host.Outcome.next.inj ((step_of_illegal hin hdec).symm.trans h)
    exact ⟨_, respond_responses .., by simp only [Input.sound, hdec]; rfl⟩
  | ok i =>
    obtain ⟨u, hexec, hu⟩ := exec_callerError i (present c rest s)
    obtain rfl : u = t := Host.Outcome.next.inj <|
      hexec.symm.trans ((stepPerformsPresentedCommand s c rest i hin hdec).symm.trans h)
    simp only [Input.sound, hdec]
    exact hu

/-- The step of a reset (70_reset R210). -/
theorem step_of_reset {s : State} {strap : Policy} {rest : List Input}
    (hin : s.inputs = .reset strap :: rest) : step s = .next (applyReset strap rest s) := by
  simp only [step, hin]

/-- One more response keeps a run safe when it reports no caller's error. -/
theorem safe_of_responses {s t : State} {r : Response} (hr : t.responses = s.responses ++ [r]) :
    t.safe = (s.safe && !r.callerError) := by
  simp [State.safe, hr]

/-- Settles O16: a command's one response says whether it was sound; a reset empties the responses and a
table write leaves them. -/
theorem soundInputsKeepRunSafe : Obligations.SoundInputsKeepRunSafe := by
  intro s t i rest hin h
  cases i with
  | command c =>
    obtain ⟨r, hr, herror⟩ := step_callerError hin h
    rw [safe_of_responses hr, herror, Bool.not_not]
  | reset strap =>
    obtain rfl := Host.Outcome.next.inj ((step_of_reset hin).symm.trans h)
    rfl
  | tableWrite frame index entry =>
    obtain rfl := Host.Outcome.next.inj ((step_of_tableWrite hin).symm.trans h)
    exact (Bool.and_true _).symm

end Sys2Proof.Machine
end

section
/-! Reset in mid-run: the block is as created, and the environment stays (70_reset R210, R211). -/

namespace Sys2Proof.Machine

/-- Settles O11: the step is `applyReset`, whose block elements are those of `State.resetWith`, with the
values of R39; store and inputs are the environment's. -/
theorem resetEmptiesTheBlock : Obligations.ResetEmptiesTheBlock := by
  intro s strap rest hin
  obtain ⟨hslots, hfirst, hlast, hfull, hpolicy, htrace⟩ := resetValues.2 strap
  exact ⟨applyReset strap rest s, step_of_reset hin, hfull, hfirst, hlast, hslots, htrace, hpolicy,
    applyReset_store strap rest s, applyReset_inputs strap rest s⟩

end Sys2Proof.Machine
end
